-- ==== Sys2Proof/Word.lean ====
section
/-! DEFINITION. The bit-vector types of PCRP-CORE's buses and registers (spec/00_scope.md rules R7 to R9,
spec/30_encoding.md rules R70, R72). -/

namespace Sys2Proof

/-- An 8-bit unsigned value (00_scope.md rule R9). -/
abbrev Byte := BitVec 8

/-- The 16-bit CRC register's contents (10_state.md rule R23). -/
abbrev CrcWord := BitVec 16

/-- A 64-bit operand or result field (30_encoding.md rules R70, R72). -/
abbrev Word := BitVec 64

/-- One command as a single 136-bit word: `OP` in bits 7:0, `A` in 71:8, `B` in 135:72
(30_encoding.md rule R70). -/
abbrev CommandWord := BitVec 136

end Sys2Proof
end

