-- ==== Sys2Proof/Syntax.lean ====
section
/-! DEFINITION. The commands of PCRP-CORE: one constructor per row of spec/opcode_table.json (30_encoding.md rule R75).
Every command carries both 64-bit operand fields `A` and `B` (rule R70); which of their bits it reads, and which must be
zero, is its operand class's business (rule R73, Machine/Operands.lean). -/

namespace Sys2Proof

/-- The operand classes of 30_encoding.md rule R73. -/
inductive OperandClass where
  | noOperand   -- `NONE`
  | i64         -- `I64`
  | p48         -- `P48`
  | u8          -- `U8`
  | u32         -- `U32`
  | i64x2       -- `I64x2`
  deriving DecidableEq, Repr

/-- The rows of the opcode map (30_encoding.md rule R75), as names alone. -/
inductive Opcode where
  | blkNop | bcdFromdec | bcdFrompacked | bcdTopacked | bcdCmp
  | crcInit | crcByte | crcRead
  | txStart | txData | txEnd
  | rxByte | rxAbort | rxSetcap | rxGetcap | rxStatus
  | blkParam
  deriving DecidableEq, Repr

/-- A command: its row of the opcode map and its operand fields `A` and `B`. -/
inductive Instr where
  | blkNop (a b : Word)
  | bcdFromdec (a b : Word)
  | bcdFrompacked (a b : Word)
  | bcdTopacked (a b : Word)
  | bcdCmp (a b : Word)
  | crcInit (a b : Word)
  | crcByte (a b : Word)
  | crcRead (a b : Word)
  | txStart (a b : Word)
  | txData (a b : Word)
  | txEnd (a b : Word)
  | rxByte (a b : Word)
  | rxAbort (a b : Word)
  | rxSetcap (a b : Word)
  | rxGetcap (a b : Word)
  | rxStatus (a b : Word)
  | blkParam (a b : Word)
  deriving DecidableEq, Repr

/-- The row of the opcode map a command belongs to. -/
def Instr.opcode : Instr → Opcode
  | .blkNop _ _ => .blkNop
  | .bcdFromdec _ _ => .bcdFromdec
  | .bcdFrompacked _ _ => .bcdFrompacked
  | .bcdTopacked _ _ => .bcdTopacked
  | .bcdCmp _ _ => .bcdCmp
  | .crcInit _ _ => .crcInit
  | .crcByte _ _ => .crcByte
  | .crcRead _ _ => .crcRead
  | .txStart _ _ => .txStart
  | .txData _ _ => .txData
  | .txEnd _ _ => .txEnd
  | .rxByte _ _ => .rxByte
  | .rxAbort _ _ => .rxAbort
  | .rxSetcap _ _ => .rxSetcap
  | .rxGetcap _ _ => .rxGetcap
  | .rxStatus _ _ => .rxStatus
  | .blkParam _ _ => .blkParam

/-- The operand field `A` of a command. -/
def Instr.opA : Instr → Word
  | .blkNop a _ | .bcdFromdec a _ | .bcdFrompacked a _ | .bcdTopacked a _ | .bcdCmp a _
  | .crcInit a _ | .crcByte a _ | .crcRead a _ | .txStart a _ | .txData a _ | .txEnd a _
  | .rxByte a _ | .rxAbort a _ | .rxSetcap a _ | .rxGetcap a _ | .rxStatus a _ | .blkParam a _ => a

/-- The operand field `B` of a command. -/
def Instr.opB : Instr → Word
  | .blkNop _ b | .bcdFromdec _ b | .bcdFrompacked _ b | .bcdTopacked _ b | .bcdCmp _ b
  | .crcInit _ b | .crcByte _ b | .crcRead _ b | .txStart _ b | .txData _ b | .txEnd _ b
  | .rxByte _ b | .rxAbort _ b | .rxSetcap _ b | .rxGetcap _ b | .rxStatus _ b | .blkParam _ b => b

/-- The command of a row of the opcode map with given operand fields. -/
def Opcode.instr : Opcode → Word → Word → Instr
  | .blkNop, a, b => .blkNop a b
  | .bcdFromdec, a, b => .bcdFromdec a b
  | .bcdFrompacked, a, b => .bcdFrompacked a b
  | .bcdTopacked, a, b => .bcdTopacked a b
  | .bcdCmp, a, b => .bcdCmp a b
  | .crcInit, a, b => .crcInit a b
  | .crcByte, a, b => .crcByte a b
  | .crcRead, a, b => .crcRead a b
  | .txStart, a, b => .txStart a b
  | .txData, a, b => .txData a b
  | .txEnd, a, b => .txEnd a b
  | .rxByte, a, b => .rxByte a b
  | .rxAbort, a, b => .rxAbort a b
  | .rxSetcap, a, b => .rxSetcap a b
  | .rxGetcap, a, b => .rxGetcap a b
  | .rxStatus, a, b => .rxStatus a b
  | .blkParam, a, b => .blkParam a b

end Sys2Proof
end

