-- ==== Sys2Proof/Machine/Operands.lean ====
section
/-! DEFINITION. Operand classes: which operand bits must be zero and how a value is assembled from the bits that are read
(spec/30_encoding.md rules R73, R74; spec/20_memory.md rules R53 to R57; spec/00_scope.md rules R7, R8). -/

namespace Sys2Proof.Machine

/-- The operand class of each row of the opcode map (30_encoding.md rule R75). -/
def operandClass : Opcode → OperandClass
  | .blkNop => .noOperand
  | .bcdFromdec => .i64
  | .bcdFrompacked => .p48
  | .bcdTopacked => .i64
  | .bcdCmp => .i64x2
  | .crcInit => .noOperand
  | .crcByte => .u8
  | .crcRead => .noOperand
  | .txStart => .noOperand
  | .txData => .u8
  | .txEnd => .noOperand
  | .rxByte => .u8
  | .rxAbort => .noOperand
  | .rxSetcap => .u32
  | .rxGetcap => .noOperand
  | .rxStatus => .noOperand
  | .blkParam => .noOperand

/-- The reserved-zero bits of a class are all zero (30_encoding.md rules R73, R74). -/
def reservedClear : OperandClass → Word → Word → Bool
  | .noOperand, a, b => a == 0 && b == 0
  | .i64, _, b => b == 0
  | .p48, a, b => a.extractLsb' 48 16 == 0 && b == 0
  | .u8, a, b => a.extractLsb' 8 56 == 0 && b == 0
  | .u32, a, b => a.extractLsb' 32 32 == 0 && b == 0
  | .i64x2, _, _ => true

/-- `sint64` of 00_scope.md rule R8: the two's-complement reading of a 64-bit field (20_memory.md rule R56). -/
def sint64 (x : Word) : Int := x.toInt

/-- `uint64` of 00_scope.md rule R8: the 64-bit two's-complement pattern of an integer. -/
def uint64 (v : Int) : Word := BitVec.ofInt 64 v

/-- `zext_64` of 00_scope.md rule R8. -/
def zext64 {n : Nat} (v : BitVec n) : Word := v.setWidth 64

/-- The byte operand `A[7:0]` (20_memory.md rule R57). -/
def byteOperand (a : Word) : Byte := a.extractLsb' 0 8

/-- The 32-bit operand `A[31:0]` (30_encoding.md rule R73, class `U32`). -/
def u32Operand (a : Word) : BitVec 32 := a.extractLsb' 0 32

/-- Packed byte `k` of a `P48` operand: `A[47-8k:40-8k]` (20_memory.md rule R55). -/
def packedByte (a : Word) (k : Nat) : Byte := a.extractLsb' (40 - 8 * k) 8

/-- The six packed bytes `p0 … p5` of a `P48` operand, first byte first. -/
def packedBytes (a : Word) : List Byte := (List.range 6).map (packedByte a)

/-- The more significant decimal digit of a packed byte, `pk[7:4]` (20_memory.md rule R53). -/
def highNibble (p : Byte) : Nat := (p.extractLsb' 4 4).toNat

/-- The less significant decimal digit of a packed byte, `pk[3:0]` (20_memory.md rule R53). -/
def lowNibble (p : Byte) : Nat := (p.extractLsb' 0 4).toNat

end Sys2Proof.Machine
end

