-- ==== Sys2Proof/WellFormed.lean ====
section
/-! DEFINITION. A command is well formed when the reserved-zero bits of its operand class are zero (spec/30_encoding.md
rules R73, R74). An ill-formed command is still a command: it decodes, and completes with `BAD_OPERAND`. -/

namespace Sys2Proof

/-- The reserved-zero bits of the command's class are all zero (30_encoding.md rule R74). -/
def Instr.wellFormed (i : Instr) : Bool :=
  Machine.reservedClear (Machine.operandClass i.opcode) i.opA i.opB

end Sys2Proof
end

