-- ==== Sys2Proof/Decode.lean ====
section
/-! DEFINITION. The decoder of a 136-bit command word and the encoder beside it (spec/30_encoding.md rules R70, R71, R75,
R76), and the listing form's fields (rule R78). Decoding looks at `OP` alone. -/

namespace Sys2Proof

/-- The `OP` byte of each row of the opcode map (30_encoding.md rule R75). -/
def Opcode.code : Opcode → Byte
  | .blkNop => 0x00
  | .bcdFromdec => 0x01
  | .bcdFrompacked => 0x02
  | .bcdTopacked => 0x03
  | .bcdCmp => 0x04
  | .crcInit => 0x10
  | .crcByte => 0x11
  | .crcRead => 0x12
  | .txStart => 0x20
  | .txData => 0x21
  | .txEnd => 0x22
  | .rxByte => 0x30
  | .rxAbort => 0x31
  | .rxSetcap => 0x32
  | .rxGetcap => 0x33
  | .rxStatus => 0x34
  | .blkParam => 0xF0

/-- The mnemonic of each row of the opcode map (30_encoding.md rule R75). -/
def Opcode.mnemonic : Opcode → String
  | .blkNop => "BLK.NOP"
  | .bcdFromdec => "BCD.FROMDEC"
  | .bcdFrompacked => "BCD.FROMPACKED"
  | .bcdTopacked => "BCD.TOPACKED"
  | .bcdCmp => "BCD.CMP"
  | .crcInit => "CRC.INIT"
  | .crcByte => "CRC.BYTE"
  | .crcRead => "CRC.READ"
  | .txStart => "TX.START"
  | .txData => "TX.DATA"
  | .txEnd => "TX.END"
  | .rxByte => "RX.BYTE"
  | .rxAbort => "RX.ABORT"
  | .rxSetcap => "RX.SETCAP"
  | .rxGetcap => "RX.GETCAP"
  | .rxStatus => "RX.STATUS"
  | .blkParam => "BLK.PARAM"

/-- The rows of the opcode map, in its order (30_encoding.md rule R75). -/
def allOpcodes : List Opcode :=
  [.blkNop, .bcdFromdec, .bcdFrompacked, .bcdTopacked, .bcdCmp, .crcInit, .crcByte, .crcRead, .txStart] ++
    [.txData, .txEnd, .rxByte, .rxAbort, .rxSetcap, .rxGetcap, .rxStatus, .blkParam]

/-- The row of the opcode map an `OP` byte selects by an exact match of all 8 bits, if any (rules R71, R76). -/
def opcodeOf (op : Byte) : Option Opcode :=
  match op with
  | 0x00#8 => some .blkNop
  | 0x01#8 => some .bcdFromdec
  | 0x02#8 => some .bcdFrompacked
  | 0x03#8 => some .bcdTopacked
  | 0x04#8 => some .bcdCmp
  | 0x10#8 => some .crcInit
  | 0x11#8 => some .crcByte
  | 0x12#8 => some .crcRead
  | 0x20#8 => some .txStart
  | 0x21#8 => some .txData
  | 0x22#8 => some .txEnd
  | 0x30#8 => some .rxByte
  | 0x31#8 => some .rxAbort
  | 0x32#8 => some .rxSetcap
  | 0x33#8 => some .rxGetcap
  | 0x34#8 => some .rxStatus
  | 0xF0#8 => some .blkParam
  | _ => none

/-- Why a command word selects no command: its `OP` is unassigned (30_encoding.md rule R76). -/
inductive DecodeError where
  | illegalOp (op : Byte)
  deriving DecidableEq, Repr

/-- `OP`, bits 7:0 of the word (30_encoding.md rule R70). -/
def wordOp (w : CommandWord) : Byte := w.extractLsb' 0 8

/-- `A`: word bit `8+i` is `A[i]` (30_encoding.md rule R70). -/
def wordA (w : CommandWord) : Word := w.extractLsb' 8 64

/-- `B`: word bit `72+i` is `B[i]` (30_encoding.md rule R70). -/
def wordB (w : CommandWord) : Word := w.extractLsb' 72 64

/-- The 136-bit word `{B, A, OP}` (30_encoding.md rules R70, R78). -/
def commandWord (op : Byte) (a b : Word) : CommandWord := b ++ a ++ op

/-- The decoder: total on every word, rejecting an unassigned `OP` by name (30_encoding.md rules R71, R76). -/
def decode (w : CommandWord) : Except DecodeError Instr :=
  match opcodeOf (wordOp w) with
  | some o => .ok (o.instr (wordA w) (wordB w))
  | none => .error (.illegalOp (wordOp w))

/-- The encoder: the one word of a command (30_encoding.md rules R70, R75). -/
def encode (i : Instr) : CommandWord :=
  commandWord i.opcode.code i.opA i.opB

/-- The instruction the decoder reads from `nbits` table bits `w`, every bit above them zero. A word that does not fit
the 136-bit command has no decoding. -/
def decodeTableWord (nbits w : Nat) : Option Instr :=
  if nbits ≤ 136 then
    match decode (BitVec.ofNat 136 (w % 2 ^ nbits)) with
    | .ok i => some i
    | .error _ => none
  else none

end Sys2Proof
end

