-- ==== Sys2Proof/Config.lean ====
section
/-! DEFINITION. The constants and build parameters of one PCRP-CORE instance (spec/00_scope.md rules R5, R6;
spec/10_state.md rule R30). The fixed values are definitions. The `OPEN` values are the fields of `Params`, which the
model takes as an argument: the instance's parameters travel in `State.params`, no command or host action writes them,
and every statement holds for every legal value of them. -/

namespace Sys2Proof.Config

/-- `P_SYN`, fixed by the source and no parameter (00_scope.md rule R6). -/
def pSyn : Byte := 0x10

/-- `BCD_MIN` (00_scope.md rule R5). -/
def bcdMin : Int := -500000000000

/-- `BCD_MAX` (00_scope.md rule R5). -/
def bcdMax : Int := 499999999999

/-- `BCD_MOD` = 10^12 (00_scope.md rule R5). -/
def bcdMod : Int := 1000000000000

/-- The CRC seed (00_scope.md rule R5). -/
def crcSeed : CrcWord := 0

/-- `CAP_RESET`: 100 KiB, with 1 KiB = 1024 bytes (00_scope.md rule R5, decision D37). -/
def capReset : Nat := 102400

/-- The constraints 00_scope.md rule R5 puts on the `OPEN` parameters: the four control bytes are pairwise distinct,
`CAP_RESET + 1` ≤ `RX_BUF_BYTES` ≤ 2^32 - 1, and each output queue holds at least two entries. -/
def legalParams (stx etx can : Byte) (rxBufBytes txDepth evDepth : Nat) : Bool :=
  stx != pSyn && etx != pSyn && can != pSyn && stx != etx && stx != can && etx != can &&
  decide (capReset + 1 ≤ rxBufBytes) && decide (rxBufBytes ≤ 4294967295) &&
  decide (2 ≤ txDepth) && decide (2 ≤ evDepth)

/-- The `OPEN` parameters the model takes, with their constraints as part of the type (00_scope.md rule R5). -/
structure Params where
  /-- `P_STX` -/
  pStx : Byte
  /-- `P_ETX` -/
  pEtx : Byte
  /-- `P_CAN` -/
  pCan : Byte
  /-- `RX_BUF_BYTES` -/
  rxBufBytes : Nat
  /-- `TX_FIFO_DEPTH` -/
  txFifoDepth : Nat
  /-- `EV_FIFO_DEPTH` -/
  evFifoDepth : Nat
  /-- `EV_PORT_FORMAT`: which serialisation the event port uses, as plain data without constraint (93_implementation_defined.md
  row 12); what the format named by a number does is the free value `evPortBits` -/
  evPortFormat : Nat
  /-- the constraints hold -/
  legal : legalParams pStx pEtx pCan rxBufBytes txFifoDepth evFifoDepth = true
  deriving DecidableEq, Repr

/-- A build request: outside the parameters' type it is refused (93_implementation_defined.md row 8). -/
def Params.build (stx etx can : Byte) (rxBufBytes txDepth evDepth evFormat : Nat) : Option Params :=
  if h : legalParams stx etx can rxBufBytes txDepth evDepth = true then
    some ⟨stx, etx, can, rxBufBytes, txDepth, evDepth, evFormat, h⟩
  else none

/-- The parameters `State.reset` is built with: the defaults of 00_scope.md rule R5 for the control bytes and
`RX_BUF_BYTES`. DESIGN CHOICE (notes/assumptions/1.md): the spec gives the two queue depths no default; 2^32 - 1 makes the
reset machine's queues the unbounded logs of 10_state.md rules R28 and R29 for every run short of that. Nor has it a
default for `EV_PORT_FORMAT`: the format numbered 0 (notes/assumptions/12.md). No statement rests on any of these
values. -/
def Params.default : Params where
  pStx := 0x02
  pEtx := 0x03
  pCan := 0x18
  rxBufBytes := 102401
  txFifoDepth := 4294967295
  evFifoDepth := 4294967295
  evPortFormat := 0
  legal := by decide

/-- How one record `(kind, reason, data)` is serialised on the event port in a format (00_scope.md rule R5,
`EV_PORT_FORMAT`; 10_state.md rule R29 leaves it to the integration). A free value: nothing constrains it. DESIGN CHOICE,
safe: its result is a sequence of bits (notes/assumptions/12.md). -/
opaque evPortBits (format kind reason : Nat) (data : List Byte) : List Bool

end Sys2Proof.Config
end

