-- ==== Sys2Proof/Machine/State.lean ====
section
/-! DEFINITION. The state of one PCRP-CORE instance as plain data (spec/10_state.md rules R20 to R36), the values that
cross its ports (responses, event records, the host's actions), and reset (spec/70_reset_and_hazards.md rules R260, R261). -/

namespace Sys2Proof.Machine

open Sys2Proof.Config

/-- `STATUS` of a response (60_exceptions.md rule R230). Codes 5 to 15 are never produced, so they have no constructor. -/
inductive Status where
  | ok
  | outOfRange
  | invalidDigit
  | badOperand
  | illegalOp
  deriving DecidableEq, Repr

/-- A response on the command port: `STATUS`, `FLAGS[2:0]` (bit 0 EQ, bit 1 LT, bit 2 GT) and `RESULT[63:0]`
(30_encoding.md rule R72, 10_state.md rule R32). -/
structure Response where
  status : Status
  flags  : BitVec 3
  result : Word
  deriving DecidableEq, Repr

/-- The reason of a `DIAG` record (10_state.md rule R29). -/
inductive DiagReason where
  | stxDetected
  | canDetected
  | bufferOverrun
  deriving DecidableEq, Repr

/-- One record `(kind, reason, data)` of the event stream (10_state.md rule R29), kept abstract in the stream; how it is
serialised on the event port is the parameter `EV_PORT_FORMAT`, in `Event.portBits` (93_implementation_defined.md row 12;
notes/assumptions/12.md). -/
inductive Event where
  | frame (data : List Byte)
  | diag (reason : DiagReason) (data : List Byte)
  | cancel
  deriving DecidableEq, Repr

/-- What the host may do to the block (70_reset_and_hazards.md rule R267): present a command, consume from the front of an
output queue, or assert reset. DESIGN CHOICE, safe: the host's actions are one ordered list (notes/assumptions/5.md). -/
inductive HostAction where
  | command (w : CommandWord)
  | consumeTx (n : Nat)
  | consumeEv (n : Nat)
  | reset
  deriving DecidableEq, Repr

/-- The registers of 10_state.md rules R23 to R27. -/
structure Regs where
  /-- `CRC`, 16 bits (R23) -/
  crc   : CrcWord
  /-- `RX_STX`, 1 bit: `Collecting` when set (R24) -/
  rxStx : Bool
  /-- `RX_ESC`, 1 bit: an escape is pending (R25) -/
  rxEsc : Bool
  /-- `RX_BUF`, the accumulation buffer, first byte first (R26) -/
  rxBuf : List Byte
  /-- `CAP`, 32 bits (R27) -/
  cap   : BitVec 32
  deriving DecidableEq, Repr

/-- The machine: the architectural state of 10_state.md rule R20 (the registers and the two output streams), the
instance's parameters (R30), and what the model itself keeps of the ports: how far the host has consumed each stream,
the command in progress, the response port, the host's coming actions, and whether the block has been reset
(DESIGN CHOICE, notes/assumptions/3.md, 4.md and 10.md). -/
structure State extends Regs where
  /-- `TX_OUT`: every byte emitted since reset, oldest first (R28) -/
  txOut     : List Byte
  /-- `EV_OUT`: every record emitted since reset, oldest first (R29) -/
  evOut     : List Event
  /-- the build parameters, written by nothing (R30) -/
  params    : Params
  /-- model's own: how many bytes of `txOut` the host has consumed (R28, R265) -/
  txTaken   : Nat
  /-- model's own: how many records of `evOut` the host has consumed (R29, R265) -/
  evTaken   : Nat
  /-- model's own: the command accepted on the command port and not yet completed (R264) -/
  pending   : Option CommandWord
  /-- model's own: the response port; read by no command (R31) -/
  response  : Option Response
  /-- model's own: what the host will do, first action first (R267) -/
  inputs    : List HostAction
  /-- model's own: reset has been asserted at least once (R261) -/
  resetDone : Bool
  deriving DecidableEq, Repr

/-- Faults. No command raises one: PCRP-CORE has no trap mechanism, and every error of a command is a status in its response
(60_exceptions.md rules R236, R243; notes/assumptions/13.md). -/
inductive Fault where
  /-- Raised by `step` when reset is asserted while a command is in progress (93_implementation_defined.md row 2, the
  treatment `fault`: the model's reset is only between commands). `after` is the state the reset leaves, the command
  abandoned with no response (70_reset_and_hazards.md rule R260). Safe: the machine stops (notes/assumptions/7.md). -/
  | resetDuringCommand (after : State)
  deriving DecidableEq, Repr

/-- Why the model gives a step no meaning. -/
inductive Refusal where
  /-- Raised by an arm of `exec` whose instruction has no meaning yet (none at present). Safe: the machine stops. -/
  | notModelled (mnemonic : String)
  /-- Raised by `step` for a command, or a host read of an output stream, before the first reset: the state is unspecified
  and the model gives it no meaning (70_reset_and_hazards.md rule R261; notes/assumptions/8.md). Safe: the machine
  stops. -/
  | beforeFirstReset
  deriving DecidableEq, Repr

/-- The values 70_reset_and_hazards.md rule R260 gives every register. -/
def Regs.reset : Regs where
  crc := crcSeed
  rxStx := false
  rxEsc := false
  rxBuf := []
  cap := BitVec.ofNat 32 capReset

/-- An instance with parameters `p` right after reset (70_reset_and_hazards.md rule R260): both streams empty, no command
in progress, no response. -/
def State.resetOf (p : Params) : State where
  toRegs := Regs.reset
  txOut := []
  evOut := []
  params := p
  txTaken := 0
  evTaken := 0
  pending := none
  response := none
  inputs := []
  resetDone := true

/-- The machine right after reset, built with the default parameters of 00_scope.md rule R5. -/
def State.reset : State := State.resetOf Params.default

end Sys2Proof.Machine
end

