-- ==== Sys2Proof/Machine/Flags.lean ====
section
/-! DEFINITION. The response flags (spec/10_state.md rule R32, spec/40_bcd.md rule R108) and the numeric codes of the
values that cross the ports (spec/60_exceptions.md rule R230, spec/10_state.md rule R29). -/

namespace Sys2Proof.Machine

/-- `FLAGS[0]` = EQ. -/
def flagEq : BitVec 3 := 0b001

/-- `FLAGS[1]` = LT. -/
def flagLt : BitVec 3 := 0b010

/-- `FLAGS[2]` = GT. -/
def flagGt : BitVec 3 := 0b100

/-- The one-hot flags of a comparison (40_bcd.md rule R108). -/
def compareFlags (a b : Int) : BitVec 3 :=
  if a = b then flagEq else if a < b then flagLt else flagGt

/-- `RESULT` of a comparison: 0, -1 or 1 (40_bcd.md rule R108). -/
def compareResult (a b : Int) : Word :=
  if a = b then 0 else if a < b then 0xFFFFFFFFFFFFFFFF else 1

/-- `STATUS[3:0]` (60_exceptions.md rule R230). -/
def Status.code : Status → BitVec 4
  | .ok => 0
  | .outOfRange => 1
  | .invalidDigit => 2
  | .badOperand => 3
  | .illegalOp => 4

/-- How a host reads a `STATUS` code; 5 to 15 are reserved and never produced (60_exceptions.md rule R230). -/
def Status.ofCode (c : BitVec 4) : Option Status :=
  match c with
  | 0#4 => some .ok
  | 1#4 => some .outOfRange
  | 2#4 => some .invalidDigit
  | 3#4 => some .badOperand
  | 4#4 => some .illegalOp
  | _ => none

/-- The reason code of a diagnostic (10_state.md rule R29). -/
def DiagReason.code : DiagReason → Nat
  | .stxDetected => 1
  | .canDetected => 2
  | .bufferOverrun => 3

/-- The `kind` code of a record (10_state.md rule R29). -/
def Event.kindCode : Event → Nat
  | .frame _ => 1
  | .diag _ _ => 2
  | .cancel => 3

/-- The `reason` code of a record (10_state.md rule R29). -/
def Event.reasonCode : Event → Nat
  | .frame _ => 0
  | .diag r _ => r.code
  | .cancel => 0

/-- The `data` of a record (10_state.md rule R29). -/
def Event.data : Event → List Byte
  | .frame d => d
  | .diag _ d => d
  | .cancel => []

/-- A record as the event port shows it, in the instance's format (10_state.md rule R29, 00_scope.md rule R5
`EV_PORT_FORMAT`). -/
def Event.portBits (p : Config.Params) (e : Event) : List Bool :=
  Config.evPortBits p.evPortFormat e.kindCode e.reasonCode e.data

end Sys2Proof.Machine
end

