-- ==== Sys2Proof/Machine/Ops.lean ====
section
/-! DEFINITION. The operations every command is made of: the effect a command has if it completes, the queues' free space,
completing or holding, failing with a status, and the host's actions on the ports.
PCRP-CORE has no addressable memory (spec/20_memory.md rule R50) and takes no exception (spec/60_exceptions.md rule R236):
its one shared way to end a command in error is `failWith` (rule R232). -/

namespace Sys2Proof.Machine

open Sys2Proof.Config

/-- Everything a completing command does (20_memory.md rule R61): the registers it leaves, the bytes it appends to
`TX_OUT`, the records it appends to `EV_OUT`, and its response. -/
structure Effect where
  regs : Regs
  tx   : List Byte
  ev   : List Event
  resp : Response
  deriving DecidableEq, Repr

/-- `respond(OK, result, 0)` with no state change and no output (00_scope.md rule R10). -/
def respondOk (s : State) (result : Word) : Effect where
  regs := s.toRegs
  tx := []
  ev := []
  resp := ⟨.ok, 0, result⟩

/-- `fail(Status)`: no state change, no output, `RESULT` = 0, `FLAGS` = 0 (60_exceptions.md rule R232). -/
def failWith (s : State) (st : Status) : Effect where
  regs := s.toRegs
  tx := []
  ev := []
  resp := ⟨st, 0, 0⟩

/-- The operand-class check every command begins with: `BAD_OPERAND` when a reserved-zero bit is set, before any value
is looked at (30_encoding.md rule R74, 60_exceptions.md rule R233). -/
def checked (c : OperandClass) (a b : Word) (s : State) (e : Effect) : Effect :=
  if reservedClear c a b then e else failWith s .badOperand

/-- Bytes of `TX_OUT` the host has not consumed. -/
def State.txQueued (s : State) : Nat := s.txOut.length - s.txTaken

/-- Records of `EV_OUT` the host has not consumed. -/
def State.evQueued (s : State) : Nat := s.evOut.length - s.evTaken

/-- The records the host has not consumed, as the event port shows them, oldest first (20_memory.md rule R59). -/
def State.evPort (s : State) : List (List Bool) := (s.evOut.drop s.evTaken).map (Event.portBits s.params)

/-- What `TX_FIFO_DEPTH` leaves free (70_reset_and_hazards.md rule R265). -/
def State.txFree (s : State) : Nat := s.params.txFifoDepth - s.txQueued

/-- What `EV_FIFO_DEPTH` leaves free (70_reset_and_hazards.md rule R265). -/
def State.evFree (s : State) : Nat := s.params.evFifoDepth - s.evQueued

/-- The command's output fits in what the queues leave free (70_reset_and_hazards.md rule R265). -/
def State.fits (s : State) (e : Effect) : Bool :=
  decide (e.tx.length ≤ s.txFree) && decide (e.ev.length ≤ s.evFree)

/-- The command completes: all its writes and outputs take effect together with its response, and the port is free for
the next command (20_memory.md rule R61, 70_reset_and_hazards.md rule R264). -/
def State.complete (s : State) (e : Effect) : State :=
  { s with
    toRegs := e.regs
    txOut := s.txOut ++ e.tx
    evOut := s.evOut ++ e.ev
    response := some e.resp
    pending := none }

/-- A command with effect `e` completes, or holds and changes nothing while its output does not fit
(70_reset_and_hazards.md rule R265). DEDUCED, safe: a hold is a step that changes nothing (notes/assumptions/6.md). -/
def State.finish (s : State) (e : Effect) : State :=
  if s.fits e then s.complete e else s

/-- A command whose `OP` is unassigned completes with `ILLEGAL_OP` and no effect (30_encoding.md rule R76). -/
def State.rejectOpcode (s : State) : State := s.finish (failWith s .illegalOp)

/-- The reset input: every piece of state takes its reset value, queued outputs are discarded and a command in progress
is abandoned with no response (70_reset_and_hazards.md rule R260). The instance's parameters stay. -/
def State.assertReset (s : State) : State := State.resetOf s.params

/-- The host consumes up to `n` bytes from the front of `TX_OUT` (70_reset_and_hazards.md rule R267). DESIGN CHOICE, safe:
asked for more than there is, it takes what there is (notes/assumptions/9.md). -/
def State.consumeTx (s : State) (n : Nat) : State :=
  { s with txTaken := min (s.txTaken + n) s.txOut.length }

/-- The host consumes up to `n` records from the front of `EV_OUT` (70_reset_and_hazards.md rule R267). -/
def State.consumeEv (s : State) (n : Nat) : State :=
  { s with evTaken := min (s.evTaken + n) s.evOut.length }

/-- The command port takes a command, and the response of the one before it is gone (70_reset_and_hazards.md rule R264,
10_state.md rule R31; DESIGN CHOICE, notes/assumptions/10.md). -/
def State.acceptCommand (s : State) (w : CommandWord) : State :=
  { s with pending := some w, response := none }

/-- The host's next action, if it has one, takes place between commands or while a command holds. A command is accepted
only when the previous one has completed (70_reset_and_hazards.md rules R264, R267): until then the host waits, and with
no action the block keeps all state (60_exceptions.md rule R242). DESIGN CHOICE, safe: notes/assumptions/5.md. -/
def State.serveHost (s : State) : State :=
  match s.inputs with
  | [] => s
  | .command w :: rest =>
    match s.pending with
    | none => { s.acceptCommand w with inputs := rest }
    | some _ => s
  | .consumeTx n :: rest => { s.consumeTx n with inputs := rest }
  | .consumeEv n :: rest => { s.consumeEv n with inputs := rest }
  | .reset :: rest => { s.assertReset with inputs := rest }

/-- The host's turn while a command holds. Reset asserted then is the fault of 93_implementation_defined.md row 2, with the
state the reset leaves; any other action takes place (70_reset_and_hazards.md rules R260, R265; notes/assumptions/7.md). -/
def State.whileHolding (s : State) : Host.Outcome State Fault Refusal :=
  match s.inputs with
  | .reset :: _ => .fault (.resetDuringCommand s.serveHost)
  | _ => .next s.serveHost

/-- Before the first reset only the reset input has a meaning; a block nobody acts on waits
(70_reset_and_hazards.md rule R261; DEDUCED, safe: notes/assumptions/8.md). -/
def State.beforeReset (s : State) : Host.Outcome State Fault Refusal :=
  match s.inputs with
  | .reset :: _ => .next s.serveHost
  | [] => if s.pending = none then .next s else .refused .beforeFirstReset
  | _ :: _ => .refused .beforeFirstReset

end Sys2Proof.Machine
end

