-- ==== Sys2Proof/Machine/Bcd.lean ====
section
/-! DEFINITION. The BCD packed-decimal ALU (spec/40_bcd.md). It keeps no state (spec/10_state.md rule R36). -/

namespace Sys2Proof.Machine

open Sys2Proof.Config

/-- A `Bcd` value: an integer in `[BCD_MIN, BCD_MAX]` (40_bcd.md rule R100). -/
def isBcd (v : Int) : Bool := decide (bcdMin ≤ v) && decide (v ≤ bcdMax)

/-- A packed form is valid when both nibbles of every byte are at most 9 (40_bcd.md rule R101). -/
def validPacked (ps : List Byte) : Bool :=
  ps.all fun p => decide (highNibble p ≤ 9) && decide (lowNibble p ≤ 9)

/-- The two digits of a packed byte as a number: `10·pk[7:4] + pk[3:0]` (40_bcd.md rule R102). -/
def pairValue (p : Byte) : Nat := 10 * highNibble p + lowNibble p

/-- The magnitude six packed bytes spell: `Σ_k (10·pk[7:4] + pk[3:0]) · 100^(5-k)` (40_bcd.md rule R102). -/
def rawOf (a : Word) : Nat :=
  ((List.range 6).map fun k => pairValue (packedByte a k) * 100 ^ (5 - k)).sum

/-- `value_of_raw(raw) = ((raw - BCD_MIN) mod 10^12) + BCD_MIN` (40_bcd.md rule R103). -/
def valueOfRaw (raw : Nat) : Int := ((raw : Int) - bcdMin) % bcdMod + bcdMin

/-- `dig(d, j)`: decimal digit `j` of `d`, 0 the units (40_bcd.md rule R104). -/
def digit (d j : Nat) : Nat := d / 10 ^ j % 10

/-- `d = (10^12 + value) mod 10^12` (40_bcd.md rule R104). -/
def rawOfValue (v : Int) : Nat := ((bcdMod + v) % bcdMod).toNat

/-- Packed byte `k` of magnitude `d`: high nibble `dig(d, 11-2k)`, low nibble `dig(d, 10-2k)` (40_bcd.md rule R104). -/
def packByte (d k : Nat) : Byte :=
  BitVec.ofNat 4 (digit d (11 - 2 * k)) ++ BitVec.ofNat 4 (digit d (10 - 2 * k))

/-- `packed_of_value(v)` on the 48-bit bus field, `p0` at `[47:40]` (40_bcd.md rule R104, 20_memory.md rule R55). -/
def packedOfValue (v : Int) : BitVec 48 :=
  let d := rawOfValue v
  packByte d 0 ++ packByte d 1 ++ packByte d 2 ++ packByte d 3 ++ packByte d 4 ++ packByte d 5

/-- `BCD.FROMDEC` (40_bcd.md rule R105). -/
def execBcdFromdec (a b : Word) (s : State) : Host.Outcome State Fault Refusal :=
  .next (s.finish (checked .i64 a b s
    (if isBcd (sint64 a) then respondOk s a else failWith s .outOfRange)))

/-- `BCD.FROMPACKED` (40_bcd.md rule R106). -/
def execBcdFrompacked (a b : Word) (s : State) : Host.Outcome State Fault Refusal :=
  .next (s.finish (checked .p48 a b s
    (if validPacked (packedBytes a) then respondOk s (uint64 (valueOfRaw (rawOf a)))
     else failWith s .invalidDigit)))

/-- `BCD.TOPACKED` (40_bcd.md rule R107). -/
def execBcdTopacked (a b : Word) (s : State) : Host.Outcome State Fault Refusal :=
  .next (s.finish (checked .i64 a b s
    (if isBcd (sint64 a) then respondOk s (zext64 (packedOfValue (sint64 a)))
     else failWith s .outOfRange)))

/-- The effect of comparing two operands: flags and result by signed decimal value (40_bcd.md rule R108). -/
def compareEffect (s : State) (x y : Int) : Effect :=
  { respondOk s 0 with resp := ⟨.ok, compareFlags x y, compareResult x y⟩ }

/-- `BCD.CMP` (40_bcd.md rule R108). -/
def execBcdCmp (a b : Word) (s : State) : Host.Outcome State Fault Refusal :=
  .next (s.finish (checked .i64x2 a b s
    (if isBcd (sint64 a) && isBcd (sint64 b) then compareEffect s (sint64 a) (sint64 b)
     else failWith s .outOfRange)))

end Sys2Proof.Machine
end

