-- ==== Sys2Proof/Machine/Block.lean ====
section
/-! DEFINITION. Block control commands (spec/44_block.md). -/

namespace Sys2Proof.Machine

open Sys2Proof.Config

/-- The word `BLK.PARAM` returns: `{RX_BUF_BYTES[31:0], P_CAN, P_ETX, P_STX, P_SYN}` (44_block.md rule R221). -/
def paramWord (p : Params) : Word :=
  BitVec.ofNat 32 p.rxBufBytes ++ p.pCan ++ p.pEtx ++ p.pStx ++ pSyn

/-- `BLK.NOP` (44_block.md rule R220). -/
def execBlkNop (a b : Word) (s : State) : Host.Outcome State Fault Refusal :=
  .next (s.finish (checked .noOperand a b s (respondOk s 0)))

/-- `BLK.PARAM` (44_block.md rule R221). -/
def execBlkParam (a b : Word) (s : State) : Host.Outcome State Fault Refusal :=
  .next (s.finish (checked .noOperand a b s (respondOk s (paramWord s.params))))

end Sys2Proof.Machine
end

