-- ==== Sys2Proof/Machine/Crc.lean ====
section
/-! DEFINITION. The CRC-16 generator (spec/41_crc.md). -/

namespace Sys2Proof.Machine

open Sys2Proof.Config

/-- `crc_step(r, b)`: swap the halves, XOR in the byte, then the three shift-XOR lines in order
(41_crc.md rule R130). -/
def crcStep (r : CrcWord) (b : Byte) : CrcWord :=
  let r := r.extractLsb' 0 8 ++ r.extractLsb' 8 8
  let r := r ^^^ b.setWidth 16
  let r := r ^^^ ((r &&& 0x00FF) >>> 4)
  let r := r ^^^ (r <<< 12)
  r ^^^ ((r &&& 0x00FF) <<< 5)

/-- `checksum16(s)`: `crc_step` folded over `s` from the seed (41_crc.md rule R131). -/
def checksum16 (bytes : List Byte) : CrcWord := bytes.foldl crcStep crcSeed

/-- `CRC.INIT` (41_crc.md rule R132). -/
def execCrcInit (a b : Word) (s : State) : Host.Outcome State Fault Refusal :=
  .next (s.finish (checked .noOperand a b s
    { respondOk s 0 with regs := { s.toRegs with crc := crcSeed } }))

/-- `CRC.BYTE` (41_crc.md rule R133). -/
def execCrcByte (a b : Word) (s : State) : Host.Outcome State Fault Refusal :=
  .next (s.finish (checked .u8 a b s
    { respondOk s (zext64 (crcStep s.crc (byteOperand a))) with
      regs := { s.toRegs with crc := crcStep s.crc (byteOperand a) } }))

/-- `CRC.READ` (41_crc.md rule R134). -/
def execCrcRead (a b : Word) (s : State) : Host.Outcome State Fault Refusal :=
  .next (s.finish (checked .noOperand a b s (respondOk s (zext64 s.crc))))

end Sys2Proof.Machine
end

