-- ==== Sys2Proof/Machine/FramerRx.lean ====
section
/-! DEFINITION. The escape framer's receive half, the de-stuffer (spec/43_framer_rx.md). -/

namespace Sys2Proof.Machine

open Sys2Proof.Config

/-- How a read stands after a byte: the outcome field of `RX.BYTE` (43_framer_rx.md rules R170, R179). Codes 3 to 7 are
never produced, so they have no constructor. -/
inductive ReadOutcome where
  | absorbed
  | complete
  | cancelled
  deriving DecidableEq, Repr

/-- What one raw byte does to the de-stuffer: the registers it leaves, the records it emits, and the outcome and
diagnostic bits of its result. -/
structure RxStep where
  regs    : Regs
  events  : List Event
  outcome : ReadOutcome
  stxDiag : Bool
  ovrDiag : Bool
  deriving DecidableEq, Repr

/-- The outcome field's code (43_framer_rx.md rule R179). -/
def ReadOutcome.code : ReadOutcome → BitVec 3
  | .absorbed => 0
  | .complete => 1
  | .cancelled => 2

/-- `buf_append(b)` (00_scope.md rule R10). -/
def bufAppend (r : Regs) (b : Byte) : Regs := { r with rxBuf := r.rxBuf ++ [b] }

/-- `RX_BUF <- []; RX_STX <- 0`: back to `Scanning` with an empty buffer (43_framer_rx.md rules R170, R172). -/
def dropRead (r : Regs) : Regs := { r with rxBuf := [], rxStx := false }

/-- The test of the overrun guard, strictly greater (43_framer_rx.md rule R172). -/
def overrun (r : Regs) : Bool := decide (r.cap.toNat < r.rxBuf.length)

/-- A byte that changed the registers to `r` and did nothing else. -/
def absorbed (r : Regs) : RxStep where
  regs := r
  events := []
  outcome := .absorbed
  stxDiag := false
  ovrDiag := false

/-- A raw byte that arrives with no escape pending, after the guard: an escaping SYN is remembered and not appended, any
other byte is ordinary data (43_framer_rx.md rules R173, R174). -/
def plainByte (w : Byte) (r : Regs) : Regs :=
  if w = pSyn then { r with rxEsc := true } else bufAppend r w

/-- A raw byte that arrives with `RX_ESC` = 0: the overrun guard, then the byte (43_framer_rx.md rules R172 to R174). -/
def rxUnescaped (w : Byte) (r : Regs) : RxStep :=
  if overrun r then
    { absorbed (plainByte w (dropRead r)) with
      events := [.diag .bufferOverrun r.rxBuf], ovrDiag := true }
  else absorbed (plainByte w r)

/-- A resolved STX: a stale buffer is reported and dropped, then collecting starts with the STX itself
(43_framer_rx.md rule R175). -/
def rxStart (p : Params) (r : Regs) : RxStep :=
  if r.rxBuf = [] then absorbed { r with rxStx := true, rxBuf := [p.pStx] }
  else
    { absorbed { r with rxStx := true, rxBuf := [p.pStx] } with
      events := [.diag .stxDetected r.rxBuf], stxDiag := true }

/-- A resolved ETX: appended, and while collecting it completes the frame (43_framer_rx.md rule R176). -/
def rxEnd (p : Params) (r : Regs) : RxStep :=
  if r.rxStx then
    { absorbed (dropRead r) with
      events := [.frame (r.rxBuf ++ [p.pEtx])], outcome := .complete }
  else absorbed (bufAppend r p.pEtx)

/-- A resolved CAN: the buffer is reported, the read is cancelled (43_framer_rx.md rule R177). -/
def rxCancel (r : Regs) : RxStep :=
  { absorbed (dropRead r) with
    events := [.diag .canDetected r.rxBuf, .cancel], outcome := .cancelled }

/-- The resolved, control-significant second byte of a SYN pair, `r` being the registers with `RX_ESC` already cleared:
tested against STX, ETX and CAN in that order (43_framer_rx.md rules R171, R175 to R178). -/
def rxResolved (p : Params) (w : Byte) (r : Regs) : RxStep :=
  if w = p.pStx then rxStart p r
  else if w = p.pEtx then rxEnd p r
  else if w = p.pCan then rxCancel r
  else absorbed (bufAppend r w)

/-- One raw wire byte (43_framer_rx.md rule R171). -/
def rxStep (p : Params) (w : Byte) (r : Regs) : RxStep :=
  if r.rxEsc then rxResolved p w { r with rxEsc := false } else rxUnescaped w r

/-- The length of the buffer as a 32-bit field (43_framer_rx.md rules R179, R183). -/
def bufLength (r : Regs) : BitVec 32 := BitVec.ofNat 32 r.rxBuf.length

/-- `RESULT` of `RX.BYTE` (43_framer_rx.md rule R179). -/
def rxResult (t : RxStep) : Word :=
  bufLength t.regs ++ (0 : BitVec 26) ++ BitVec.ofBool t.ovrDiag ++ BitVec.ofBool t.stxDiag ++
    BitVec.ofBool t.regs.rxEsc ++ t.outcome.code

/-- `RESULT` of `RX.STATUS` (43_framer_rx.md rule R183). -/
def rxStatusWord (r : Regs) : Word :=
  bufLength r ++ (0 : BitVec 30) ++ BitVec.ofBool r.rxEsc ++ BitVec.ofBool r.rxStx

/-- The effect of `RX.BYTE` on the whole block (43_framer_rx.md rule R171). -/
def rxByteEffect (s : State) (t : RxStep) : Effect :=
  { respondOk s (rxResult t) with regs := t.regs, ev := t.events }

/-- `RX.BYTE` (43_framer_rx.md rule R171). -/
def execRxByte (a b : Word) (s : State) : Host.Outcome State Fault Refusal :=
  .next (s.finish (checked .u8 a b s
    (rxByteEffect s (rxStep s.params (byteOperand a) s.toRegs))))

/-- `RX.ABORT` (43_framer_rx.md rule R180). -/
def execRxAbort (a b : Word) (s : State) : Host.Outcome State Fault Refusal :=
  .next (s.finish (checked .noOperand a b s
    { respondOk s 0 with regs := { s.toRegs with rxBuf := [], rxStx := false, rxEsc := false } }))

/-- `RX.SETCAP` (43_framer_rx.md rule R181). -/
def execRxSetcap (a b : Word) (s : State) : Host.Outcome State Fault Refusal :=
  .next (s.finish (checked .u32 a b s
    (if s.params.rxBufBytes - 1 < (u32Operand a).toNat then failWith s .badOperand
     else { respondOk s (zext64 (u32Operand a)) with regs := { s.toRegs with cap := u32Operand a } })))

/-- `RX.GETCAP` (43_framer_rx.md rule R182). -/
def execRxGetcap (a b : Word) (s : State) : Host.Outcome State Fault Refusal :=
  .next (s.finish (checked .noOperand a b s (respondOk s (zext64 s.cap))))

/-- `RX.STATUS` (43_framer_rx.md rule R183). -/
def execRxStatus (a b : Word) (s : State) : Host.Outcome State Fault Refusal :=
  .next (s.finish (checked .noOperand a b s (respondOk s (rxStatusWord s.toRegs))))

end Sys2Proof.Machine
end

