-- ==== Sys2Proof/Machine/FramerTx.lean ====
section
/-! DEFINITION. The escape framer's transmit half, the byte-stuffer (spec/42_framer_tx.md). It keeps no state. -/

namespace Sys2Proof.Machine

open Sys2Proof.Config

/-- `tx_emit(bytes)` and a response whose `RESULT` is the number of bytes emitted (42_framer_tx.md rules R151 to R153). -/
def emitBytes (s : State) (bytes : List Byte) : Effect :=
  { respondOk s (BitVec.ofNat 64 bytes.length) with tx := bytes }

/-- `esc(b)`: a literal SYN is doubled, every other byte stands for itself (42_framer_tx.md rules R152, R154). -/
def escapeByte (b : Byte) : List Byte := if b = pSyn then [pSyn, b] else [b]

/-- The bytes strictly between a frame's first and last byte: `f[1] … f[n-2]`. -/
def innerBytes (f : List Byte) : List Byte := f.tail.dropLast

/-- `wire(f)`: the escaped wire form of a frame buffer (42_framer_tx.md rule R154). -/
def wire (p : Params) (f : List Byte) : List Byte :=
  [pSyn, p.pStx] ++ (innerBytes f).flatMap escapeByte ++ [pSyn, p.pEtx]

/-- `TX.START` (42_framer_tx.md rule R151). -/
def execTxStart (a b : Word) (s : State) : Host.Outcome State Fault Refusal :=
  .next (s.finish (checked .noOperand a b s (emitBytes s [pSyn, s.params.pStx])))

/-- `TX.DATA` (42_framer_tx.md rule R152). -/
def execTxData (a b : Word) (s : State) : Host.Outcome State Fault Refusal :=
  .next (s.finish (checked .u8 a b s (emitBytes s (escapeByte (byteOperand a)))))

/-- `TX.END` (42_framer_tx.md rule R153). -/
def execTxEnd (a b : Word) (s : State) : Host.Outcome State Fault Refusal :=
  .next (s.finish (checked .noOperand a b s (emitBytes s [pSyn, s.params.pEtx])))

end Sys2Proof.Machine
end

