-- ==== Sys2Proof/Machine/Dispatch.lean ====
section
/-! DEFINITION. The one match from a command to its meaning (spec/30_encoding.md rule R75). -/

namespace Sys2Proof.Machine

def exec (i : Instr) (s : State) : Host.Outcome State Fault Refusal :=
  match i with
  | .blkNop a b => Sys2Proof.Machine.execBlkNop a b s
  | .bcdFromdec a b => Sys2Proof.Machine.execBcdFromdec a b s
  | .bcdFrompacked a b => Sys2Proof.Machine.execBcdFrompacked a b s
  | .bcdTopacked a b => Sys2Proof.Machine.execBcdTopacked a b s
  | .bcdCmp a b => Sys2Proof.Machine.execBcdCmp a b s
  | .crcInit a b => Sys2Proof.Machine.execCrcInit a b s
  | .crcByte a b => Sys2Proof.Machine.execCrcByte a b s
  | .crcRead a b => Sys2Proof.Machine.execCrcRead a b s
  | .txStart a b => Sys2Proof.Machine.execTxStart a b s
  | .txData a b => Sys2Proof.Machine.execTxData a b s
  | .txEnd a b => Sys2Proof.Machine.execTxEnd a b s
  | .rxByte a b => Sys2Proof.Machine.execRxByte a b s
  | .rxAbort a b => Sys2Proof.Machine.execRxAbort a b s
  | .rxSetcap a b => Sys2Proof.Machine.execRxSetcap a b s
  | .rxGetcap a b => Sys2Proof.Machine.execRxGetcap a b s
  | .rxStatus a b => Sys2Proof.Machine.execRxStatus a b s
  | .blkParam a b => Sys2Proof.Machine.execBlkParam a b s

end Sys2Proof.Machine
end

