-- ==== Sys2Proof/Machine/Port.lean ====
section
/-! DEFINITION. The command port (spec/70_reset_and_hazards.md rules R264, R265, R267): the command in progress runs; while it
holds, and between commands, the host's next action takes place. DESIGN CHOICE, safe: a command that fits completes in the
one step that runs it (notes/assumptions/14.md). -/

namespace Sys2Proof.Machine

/-- The word on the command port is decoded and run; an unassigned `OP` completes with `ILLEGAL_OP`, its operands not
looked at (30_encoding.md rule R76, 60_exceptions.md rule R233). -/
def runCommand (w : CommandWord) (s : State) : Host.Outcome State Fault Refusal :=
  match decode w with
  | .ok i => exec i s
  | .error (.illegalOp _) => .next s.rejectOpcode

/-- What follows a run of the command in progress: if it completed, that is the step; if it holds (it is still on the
port), it is the host's turn (70_reset_and_hazards.md rule R265). -/
def afterRun : Host.Outcome State Fault Refusal → Host.Outcome State Fault Refusal
  | .next t => if t.pending = none then .next t else t.whileHolding
  | .fault r => .fault r
  | .refused r => .refused r

/-- One step of the block. -/
def portStep (s : State) : Host.Outcome State Fault Refusal :=
  if s.resetDone then
    match s.pending with
    | some w => afterRun (runCommand w s)
    | none => .next s.serveHost
  else s.beforeReset

/-- The word of `nbits` table bits `w`, every bit above them zero, on the command port. DESIGN CHOICE: unlike
`acceptCommand` it leaves an earlier response standing and replaces a command that holds, since the host's check changes
nothing a run does not need (notes/assumptions/2.md and 10.md). -/
def State.presentWord (s : State) (nbits w : Nat) : State :=
  { s with pending := some (BitVec.ofNat 136 (w % 2 ^ nbits)) }

end Sys2Proof.Machine
end

