-- ==== Sys2Proof/Machine/Step.lean ====
section
/-! DEFINITION. One step of the machine, and how the host's check places a command on the port. -/

namespace Sys2Proof.Machine

/-- One step (Machine/Port.lean). -/
def step (s : State) : Host.Outcome State Fault Refusal := portStep s

/-- The command presented on the command port, where `step` takes the next command it runs (30_encoding.md rule R70,
10_state.md rule R22: there is no fetch; notes/assumptions/2.md). -/
def State.withFetchWord (s : State) (nbits w : Nat) : State := s.presentWord nbits w

end Sys2Proof.Machine
end

