-- ==== Sys2Proof/Machine/Pseudo.lean ====
section
/-! DEFINITION. The pseudo-instructions as the commands they expand to (spec/30_encoding.md rules R79 to R81), and running a
list of commands in order, each seeing what the ones before it did (spec/20_memory.md rule R63). -/

namespace Sys2Proof.Machine

open Sys2Proof.Config

/-- `CRC.SPAN b0, …, b(n-1)` (30_encoding.md rule R79). -/
def crcSpan (bytes : List Byte) : List Instr :=
  [.crcInit 0 0] ++ bytes.map (fun b => .crcByte (zext64 b) 0) ++ [.crcRead 0 0]

/-- A frame buffer the writer is defined for: at least two bytes, `P_STX` first and `P_ETX` last (30_encoding.md rule
R80). -/
def isFrame (p : Params) (f : List Byte) : Bool :=
  decide (2 ≤ f.length) && f.head? == some p.pStx && f.getLast? == some p.pEtx

/-- `TX.FRAME f0, …, f(n-1)`; refused unless it is given a frame buffer (30_encoding.md rule R80). -/
def txFrame (p : Params) (f : List Byte) : Option (List Instr) :=
  if isFrame p f then
    some ([.txStart 0 0] ++ (innerBytes f).map (fun b => .txData (zext64 b) 0) ++ [.txEnd 0 0])
  else none

/-- `RX.FEED w0, …, w(m-1)` (30_encoding.md rule R81). -/
def rxFeed (bytes : List Byte) : List Instr := bytes.map fun w => .rxByte (zext64 w) 0

/-- The host presents one command on the port and waits for its response; `none` while the command holds
(70_reset_and_hazards.md rules R264, R265). DESIGN CHOICE: it does not ask whether the port is free or the block was ever
reset, so a command that holds is replaced and a block never reset runs the command, where `step` waits or refuses
(notes/assumptions/15.md). -/
def issue (i : Instr) (s : State) : Option State :=
  match exec i (s.acceptCommand (encode i)) with
  | .next t => if t.pending = none then some t else none
  | .fault _ => none
  | .refused _ => none

/-- The host presents a list of commands, one after the other, each when the one before it has completed; `none` when one
of them holds, with a host that consumes nothing meanwhile (20_memory.md rule R63, 70_reset_and_hazards.md rule R264). Like
`issue`, it does not look at the state's own port or at `resetDone` (DESIGN CHOICE, notes/assumptions/15.md). -/
def issueAll : List Instr → State → Option State
  | [], s => some s
  | i :: is, s =>
    match issue i s with
    | some t => issueAll is t
    | none => none

end Sys2Proof.Machine
end

