-- ==== Sys2Proof/Machine/Assembler.lean ====
section
/-! DEFINITION. The assembler syntax and the listing form (spec/30_encoding.md rules R77, R78), over lists of
characters. DESIGN CHOICE where the rules leave notation open (notes/assumptions/11.md). -/

namespace Sys2Proof.Machine

open Sys2Proof.Config

/-- Why the assembler refuses a line (30_encoding.md rules R77, R80). -/
inductive AsmError where
  | unknownMnemonic
  | badLiteral
  | outOfRange
  | wrongOperands
  | notAFrame
  deriving DecidableEq, Repr

/-- The value of a hexadecimal digit, either case. -/
def hexDigit (c : Char) : Option Nat :=
  let n := c.toNat
  if 48 ≤ n ∧ n ≤ 57 then some (n - 48)
  else if 65 ≤ n ∧ n ≤ 70 then some (n - 55)
  else if 97 ≤ n ∧ n ≤ 102 then some (n - 87)
  else none

/-- The value of a decimal digit. -/
def decDigit (c : Char) : Option Nat :=
  if 48 ≤ c.toNat ∧ c.toNat ≤ 57 then some (c.toNat - 48) else none

/-- Digits of base `base` read onto `acc`; `_` only groups digits of a hexadecimal constant (00_scope.md rule R7). -/
def readDigits (base : Nat) (acc : Nat) : List Char → Option Nat
  | [] => some acc
  | c :: cs =>
    if base = 16 ∧ c = '_' then readDigits base acc cs
    else
      match (if base = 16 then hexDigit c else decDigit c) with
      | some d => readDigits base (base * acc + d) cs
      | none => none

/-- A number of base `base`: one digit at least. -/
def readNumber (base : Nat) : List Char → Option Nat
  | [] => none
  | '_' :: _ => none
  | c :: cs => readDigits base 0 (c :: cs)

/-- An integer literal: decimal, optionally signed, or hexadecimal with `0x` (30_encoding.md rule R77). -/
def readLiteral : List Char → Option Int
  | '-' :: ds => (readNumber 10 ds).map fun n => -(n : Int)
  | '+' :: ds => (readNumber 10 ds).map fun n => (n : Int)
  | '0' :: 'x' :: hs => (readNumber 16 hs).map fun n => (n : Int)
  | ds => (readNumber 10 ds).map fun n => (n : Int)

/-- The operand field a literal stands for in a class; a literal outside the class's range is refused, not truncated
(30_encoding.md rule R77). -/
def literalOperand (c : OperandClass) (x : Int) : Option Word :=
  match c with
  | .noOperand => none
  | .i64 | .i64x2 => if -9223372036854775808 ≤ x ∧ x < 18446744073709551616 then some (BitVec.ofInt 64 x) else none
  | .p48 => if 0 ≤ x ∧ x < 281474976710656 then some (BitVec.ofInt 64 x) else none
  | .u8 => if 0 ≤ x ∧ x ≤ 255 then some (BitVec.ofInt 64 x) else none
  | .u32 => if 0 ≤ x ∧ x < 4294967296 then some (BitVec.ofInt 64 x) else none

/-- `MNEMONIC`, `MNEMONIC x` or `MNEMONIC x, y`, as the command's class asks (30_encoding.md rule R77). -/
def assembleCommand (o : Opcode) (xs : List Int) : Except AsmError Instr :=
  match operandClass o, xs with
  | .noOperand, [] => .ok (o.instr 0 0)
  | .i64x2, [x, y] =>
    match literalOperand .i64x2 x, literalOperand .i64x2 y with
    | some a, some b => .ok (o.instr a b)
    | _, _ => .error .outOfRange
  | .noOperand, _ | .i64x2, _ => .error .wrongOperands
  | c, [x] =>
    match literalOperand c x with
    | some a => .ok (o.instr a 0)
    | none => .error .outOfRange
  | _, _ => .error .wrongOperands

/-- Byte literals of a pseudo-instruction (30_encoding.md rules R79 to R81). -/
def literalBytes : List Int → Except AsmError (List Byte)
  | [] => .ok []
  | x :: xs =>
    match literalOperand .u8 x, literalBytes xs with
    | some a, .ok bs => .ok (byteOperand a :: bs)
    | none, _ => .error .outOfRange
    | _, .error e => .error e

/-- A space or a tab. -/
def isBlank (c : Char) : Bool := c == ' ' || c == '\t' || c == '\r'

/-- A field without the blanks around it. -/
def trimBlanks (cs : List Char) : List Char :=
  ((cs.dropWhile isBlank).reverse.dropWhile isBlank).reverse

/-- The pieces of a text between occurrences of `sep`. -/
def splitAtSep (sep : Char) : List Char → List (List Char)
  | [] => [[]]
  | c :: cs =>
    match splitAtSep sep cs with
    | [] => [[c]]
    | p :: ps => if c = sep then [] :: p :: ps else (c :: p) :: ps

/-- The literals of a comma-separated operand list; no text, no operands. -/
def readOperands (cs : List Char) : Option (List Int) :=
  if cs = [] then some [] else ((splitAtSep ',' cs).map fun f => readLiteral (trimBlanks f)).mapM id

/-- The row of the opcode map a mnemonic in capitals names. -/
def namedOpcode (name : List Char) : Option Opcode :=
  allOpcodes.find? fun o => o.mnemonic.toList == name

/-- A mnemonic in capitals with its literals: a command, or a pseudo-instruction's expansion (30_encoding.md rules R77,
R79 to R81). DESIGN CHOICE: `RX.FEED` with no literal is accepted and expands to no command, since rule R81 gives its
number of bytes no lower bound (notes/assumptions/11.md). -/
def assembleNamed (p : Params) (name : List Char) (xs : List Int) : Except AsmError (List Instr) :=
  match namedOpcode name with
  | some o => (assembleCommand o xs).map fun i => [i]
  | none =>
    if name = "CRC.SPAN".toList then (literalBytes xs).map crcSpan
    else if name = "RX.FEED".toList then (literalBytes xs).map rxFeed
    else if name = "TX.FRAME".toList then
      match literalBytes xs with
      | .error e => .error e
      | .ok f =>
        match txFrame p f with
        | some is => .ok is
        | none => .error .notAFrame
    else .error .unknownMnemonic

/-- One line: `;` starts a comment, mnemonics are case-insensitive, an empty line is no command (30_encoding.md rule
R77). -/
def assembleLine (p : Params) (line : List Char) : Except AsmError (List Instr) :=
  let code := trimBlanks (line.takeWhile fun c => c != ';')
  if code = [] then .ok []
  else
    let name := (code.takeWhile fun c => !isBlank c).map Char.toUpper
    match readOperands (trimBlanks (code.dropWhile fun c => !isBlank c)) with
    | some xs => assembleNamed p name xs
    | none => .error .badLiteral

/-- A listing's text, one command a line (30_encoding.md rule R77). -/
def assemble (p : Params) (text : List Char) : Except AsmError (List Instr) :=
  (splitAtSep '\n' text).foldr
    (fun line rest =>
      match assembleLine p line, rest with
      | .ok is, .ok js => .ok (is ++ js)
      | .error e, _ => .error e
      | _, .error e => .error e)
    (.ok [])

/-- The listing form `OP A B`: three hexadecimal numbers without `0x`, each zero-extended to its field width
(30_encoding.md rule R78). -/
def readListing (line : List Char) : Option CommandWord :=
  match ((splitAtSep ' ' line).filter fun f => f ≠ []).map (readNumber 16) with
  | [some op, some a, some b] =>
    if op < 256 ∧ a < 18446744073709551616 ∧ b < 18446744073709551616 then
      some (commandWord (BitVec.ofNat 8 op) (BitVec.ofNat 64 a) (BitVec.ofNat 64 b))
    else none
  | _ => none

/-- The capital hexadecimal digits of a number without leading zeros. -/
def writeHex (n : Nat) : List Char := (Nat.toDigits 16 n).map Char.toUpper

/-- A command word in the listing form (30_encoding.md rule R78). -/
def writeListing (w : CommandWord) : List Char :=
  writeHex (wordOp w).toNat ++ ' ' :: writeHex (wordA w).toNat ++ ' ' :: writeHex (wordB w).toNat

end Sys2Proof.Machine
end

