-- ==== Sys2Proof/Safety.lean ====
section
/-! DEFINITION. What holds of the block in every state a run from reset can reach (spec/10_state.md rules R27, R34, R35,
spec/43_framer_rx.md rule R188, spec/70_reset_and_hazards.md rule R265). -/

namespace Sys2Proof.Machine

/-- A delivered frame begins with `P_STX`, ends with `P_ETX` and has at least two bytes (43_framer_rx.md rule R188). -/
def Event.wellShaped (p : Config.Params) : Event → Prop
  | .frame d => d.head? = some p.pStx ∧ d.getLast? = some p.pEtx ∧ 2 ≤ d.length
  | .diag _ _ => True
  | .cancel => True

/-- The invariant of the block. -/
structure State.Inv (s : State) : Prop where
  /-- While collecting, the buffer begins with `P_STX` (10_state.md rule R34). -/
  collectingHead : s.rxStx = true → s.rxBuf.head? = some s.params.pStx
  /-- The buffer fits (10_state.md rule R35). -/
  bufferFits : s.rxBuf.length ≤ s.params.rxBufBytes
  /-- With an escape pending there is room for one more byte (10_state.md rule R35). -/
  escapeFits : s.rxEsc = true → s.rxBuf.length ≤ s.params.rxBufBytes - 1
  /-- `CAP` holds a legal value (10_state.md rule R27). -/
  capLegal : s.cap.toNat ≤ s.params.rxBufBytes - 1
  /-- The host has consumed no more of `TX_OUT` than was emitted. -/
  txTakenLe : s.txTaken ≤ s.txOut.length
  /-- The host has consumed no more of `EV_OUT` than was emitted. -/
  evTakenLe : s.evTaken ≤ s.evOut.length
  /-- The wire output queue is never overfilled (70_reset_and_hazards.md rule R265). -/
  txQueueFits : s.txQueued ≤ s.params.txFifoDepth
  /-- The event queue is never overfilled (70_reset_and_hazards.md rule R265). -/
  evQueueFits : s.evQueued ≤ s.params.evFifoDepth
  /-- Every frame delivered so far is well shaped (43_framer_rx.md rule R188). -/
  framesShaped : ∀ e ∈ s.evOut, e.wellShaped s.params

end Sys2Proof.Machine
end

