-- ==== Sys2Proof/Certificates/Slice0/Obligations.lean ====
section
/-! DEFINITION. The statements about PCRP-CORE. They speak of `exec`, `step` and the pseudo-instructions' expansions;
numbers, bit positions and formulas are written out from the spec's rules wherever the model computes them another way. -/

open Sys2Proof Sys2Proof.Machine Sys2Proof.Config

/-! Words the statements share. -/

/-- The state after a command that completed with response `r` and changed nothing else. -/
def Sys2Proof.Claims.answered (s : State) (r : Response) : State :=
  { s with response := some r, pending := none }

/-- `BAD_OPERAND` with `RESULT` = 0 and `FLAGS` = 0. -/
def Sys2Proof.Claims.badOperand : Response := ⟨.badOperand, 0, 0⟩

/-- `OUT_OF_RANGE` with `RESULT` = 0 and `FLAGS` = 0. -/
def Sys2Proof.Claims.outOfRange : Response := ⟨.outOfRange, 0, 0⟩

/-- Hexadecimal digit `j` of a field, digit 0 the least significant. -/
def Sys2Proof.Claims.nibble (a : Nat) (j : Nat) : Nat := a / 16 ^ j % 16

/-- The number the twelve lowest hexadecimal digits spell when read as decimal digits. -/
def Sys2Proof.Claims.spelled (a : Nat) : Nat :=
  ((List.range 12).map fun j => Claims.nibble a j * 10 ^ j).sum

/-- One step of the bit-serial CRC with generator polynomial 0x1021, most significant bit first. -/
def Sys2Proof.Claims.crcBit (r : BitVec 16) (bit : Bool) : BitVec 16 :=
  if (r.getLsbD 15 ^^ bit) then (r <<< 1) ^^^ 0x1021 else r <<< 1

/-- The eight bits of a byte through the bit-serial CRC, most significant first. -/
def Sys2Proof.Claims.crcBits (r : BitVec 16) (b : BitVec 8) : BitVec 16 :=
  [7, 6, 5, 4, 3, 2, 1, 0].foldl (fun r i => Claims.crcBit r (b.getLsbD i)) r

/-- Read a wire from the left, a SYN taking the byte after it as its pair: the second bytes of the SYN pairs in order, or
nothing when the last SYN has no byte after it. -/
def Sys2Proof.Claims.synPairs : List Byte → Option (List Byte)
  | [] => some []
  | [w] => if w = 0x10 then none else some []
  | w :: x :: ws => if w = 0x10 then (Claims.synPairs ws).map (x :: ·) else Claims.synPairs (x :: ws)

/-- The state after a completed command that left registers `r`, emitted records `evs` and answered `OK` with `result`. -/
def Sys2Proof.Claims.received (s : State) (r : Regs) (evs : List Event) (result : Word) : State :=
  { s with toRegs := r, evOut := s.evOut ++ evs, response := some ⟨.ok, 0, result⟩, pending := none }

/-- A result of `RX.BYTE`: the buffer's length in bits 63:32 and the low half as given. -/
def Sys2Proof.Claims.rxWord (len : Nat) (low : BitVec 32) : Word := BitVec.ofNat 32 len ++ low

/-- The command in progress holds: run, it changes nothing and stays on the port. -/
def Sys2Proof.Claims.holding (s : State) : Prop := ∃ w, s.pending = some w ∧ runCommand w s = .next s

/-- The step of a state whose command holds: the host's next action takes place, and reset is the fault of
93_implementation_defined.md row 2 with the state it leaves. -/
def Sys2Proof.Claims.hostTurn (s : State) : Prop :=
  ((∀ rest, s.inputs ≠ .reset :: rest) → step s = .next s.serveHost) ∧
  ∀ rest, s.inputs = .reset :: rest → step s = .fault (.resetDuringCommand s.serveHost)

/-- What asserting reset leaves (70_reset_and_hazards.md rule R260), the host's later actions being `rest`. -/
def Sys2Proof.Claims.resetLeaves (s : State) (rest : List HostAction) (t : State) : Prop :=
  t.crc = 0 ∧ t.rxStx = false ∧ t.rxEsc = false ∧ t.rxBuf = [] ∧ t.cap.toNat = 102400 ∧
    t.txOut = [] ∧ t.evOut = [] ∧ t.txTaken = 0 ∧ t.evTaken = 0 ∧ t.pending = none ∧ t.response = none ∧
    t.params = s.params ∧ t.inputs = rest ∧ t.resetDone = true

/-- The range of an integer literal in each operand class (30_encoding.md rule R77). -/
def Sys2Proof.Claims.literalFits : OperandClass → Int → Prop
  | .noOperand, _ => False
  | .i64, x | .i64x2, x => -2 ^ 63 ≤ x ∧ x < 2 ^ 64
  | .p48, x => 0 ≤ x ∧ x < 2 ^ 48
  | .u8, x => 0 ≤ x ∧ x ≤ 255
  | .u32, x => 0 ≤ x ∧ x < 2 ^ 32

open Sys2Proof.Claims

/-! Encoding and decoding. -/

/-- No bit of an encoding is dropped: the decoder reads back every command the encoder writes, well formed or not, with
every value of both operand fields (30_encoding.md rules R70, R71, R75). -/
def Obligations.DecodingAnEncodedCommandGivesItBack : Prop :=
  ∀ i : Instr, decode (encode i) = .ok i

/-- Each command word has one meaning: encoding what the decoder read gives the word (30_encoding.md rule R70). -/
def Obligations.EncodingADecodedWordGivesItBack : Prop :=
  ∀ (w : CommandWord) (i : Instr), decode w = .ok i → encode i = w

/-- Words written out from rules R70 and R75, one of each unit: `00 0 0`, `04 FFFFFFFFFFFFFFFF 4B`, `11 41 0`,
`21 10 0`, `30 18 0`, `32 19000 0`. -/
def Obligations.WordsOfTheSpecDecode : Prop :=
  decode 0x0#136 = .ok (.blkNop 0 0) ∧
  decode 0x4BFFFFFFFFFFFFFFFF04#136 = .ok (.bcdCmp 0xFFFFFFFFFFFFFFFF 0x4B) ∧
  decode 0x4111#136 = .ok (.crcByte 0x41 0) ∧
  decode 0x1021#136 = .ok (.txData 0x10 0) ∧
  decode 0x1830#136 = .ok (.rxByte 0x18 0) ∧
  decode 0x1900032#136 = .ok (.rxSetcap 0x19000 0)

/-- The rows of the opcode map: `OP`, mnemonic and operand class (30_encoding.md rule R75). -/
def Obligations.OpcodeMapRowsAreTheSpecs : Prop :=
  allOpcodes.map (fun o => (o.code, o.mnemonic, operandClass o)) =
    [(0x00, "BLK.NOP", .noOperand), (0x01, "BCD.FROMDEC", .i64), (0x02, "BCD.FROMPACKED", .p48),
     (0x03, "BCD.TOPACKED", .i64), (0x04, "BCD.CMP", .i64x2), (0x10, "CRC.INIT", .noOperand),
     (0x11, "CRC.BYTE", .u8), (0x12, "CRC.READ", .noOperand), (0x20, "TX.START", .noOperand)] ++
    [(0x21, "TX.DATA", .u8), (0x22, "TX.END", .noOperand), (0x30, "RX.BYTE", .u8), (0x31, "RX.ABORT", .noOperand),
     (0x32, "RX.SETCAP", .u32), (0x33, "RX.GETCAP", .noOperand), (0x34, "RX.STATUS", .noOperand),
     (0xF0, "BLK.PARAM", .noOperand)]

/-- Rule R71: an exact match of `OP` against a row of the map selects the command; `A` and `B` select nothing and are
carried into it; what does not match is rejected whatever they hold. -/
def Obligations.DecodingLooksAtOpAlone : Prop :=
  ∀ (op : Byte) (a b : Word),
    (∀ o : Opcode, o.code = op → decode (commandWord op a b) = .ok (o.instr a b)) ∧
    ((∀ o : Opcode, o.code ≠ op) → decode (commandWord op a b) = .error (.illegalOp op)) ∧
    ∀ i, decode (commandWord op a b) = .ok i → i.opcode.code = op ∧ i.opA = a ∧ i.opB = b

/-- The ranges of rule R76: a command with such an `OP` completes with `ILLEGAL_OP` whatever its operands hold, and
nothing else changes. -/
def Obligations.UnassignedOpcodesAnswerIllegalOp : Prop :=
  ∀ (s : State) (op : Byte) (a b : Word), s.resetDone = true → s.pending = some (commandWord op a b) →
    ((0x05 ≤ op.toNat ∧ op.toNat ≤ 0x0F) ∨ (0x13 ≤ op.toNat ∧ op.toNat ≤ 0x1F) ∨ (0x23 ≤ op.toNat ∧ op.toNat ≤ 0x2F) ∨
      (0x35 ≤ op.toNat ∧ op.toNat ≤ 0xEF) ∨ (0xF1 ≤ op.toNat ∧ op.toNat ≤ 0xFF)) →
    step s = .next (answered s ⟨.illegalOp, 0, 0⟩)

/-! The command protocol, reset and the whole machine. -/

/-- A step with a command in progress is the execution of the command the word decodes to. If it completed, that is all;
if it holds, it changed nothing, and it is the host's turn while it waits (70_reset_and_hazards.md rules R264, R265; a hold
as such a step and the host's turn are the model's choice, log entries 5, 6 and 7). -/
def Obligations.StepRunsTheDecodedCommand : Prop :=
  ∀ (s : State) (w : CommandWord) (i : Instr), s.resetDone = true → s.pending = some w → decode w = .ok i →
    ∃ t, exec i s = .next t ∧
      ((t.pending = none ∧ step s = .next t) ∨ (t = s ∧ hostTurn s))

/-- Between commands the block takes the host's next action: it accepts a command, whose predecessor's response is then
gone, or, with nothing asked of it, keeps all state (10_state.md rule R31, 60_exceptions.md rule R242,
70_reset_and_hazards.md rules R264, R267). The port's fields are the model's choice (log entries 4, 5, 10). -/
def Obligations.CommandIsAcceptedBetweenCommands : Prop :=
  ∀ s : State, s.resetDone = true → s.pending = none →
    (s.inputs = [] → step s = .next s) ∧
    (∀ w rest, s.inputs = .command w :: rest →
      step s = .next { s with pending := some w, response := none, inputs := rest })

/-- The host consumes from the front of a queue: what was emitted stays as it was and the consumed count rises, never
past what there is (70_reset_and_hazards.md rule R267), between commands and while a command holds (log entries 5 and 6).
Asking for more takes exactly what there is: the model's choice (log entry 9). -/
def Obligations.HostConsumesFromTheFront : Prop :=
  ∀ (s : State) (n : Nat) (rest : List HostAction), s.resetDone = true → (s.pending = none ∨ holding s) →
    (s.inputs = .consumeTx n :: rest → s.txTaken ≤ s.txOut.length →
      ∃ k, (s.txTaken + n ≤ s.txOut.length → k = n) ∧
        (s.txOut.length < s.txTaken + n → s.txTaken + k = s.txOut.length) ∧
        step s = .next { s with txTaken := s.txTaken + k, inputs := rest }) ∧
    (s.inputs = .consumeEv n :: rest → s.evTaken ≤ s.evOut.length →
      ∃ k, (s.evTaken + n ≤ s.evOut.length → k = n) ∧
        (s.evOut.length < s.evTaken + n → s.evTaken + k = s.evOut.length) ∧
        step s = .next { s with evTaken := s.evTaken + k, inputs := rest })

/-- Rule R260: asserting reset between commands, or before the first reset, gives every piece of state its reset value and
discards queued output. While a command holds it leaves the same, the command abandoned with no response, and there the
model's step is a fault that carries that state (93_implementation_defined.md row 2, log entry 7). -/
def Obligations.ResetSetsEveryPieceOfState : Prop :=
  ∀ (s : State) (rest : List HostAction), s.inputs = .reset :: rest →
    ((s.resetDone = false ∨ s.pending = none) → ∃ t, step s = .next t ∧ resetLeaves s rest t) ∧
    (s.resetDone = true → holding s → ∃ t, step s = .fault (.resetDuringCommand t) ∧ resetLeaves s rest t)

/-- A command issued before the first reset is refused (rule R261); the reset input is not. The mark `resetDone` is the
model's own (log entry 8). -/
def Obligations.CommandBeforeTheFirstResetIsRefused : Prop :=
  ∀ s : State, s.resetDone = false →
    (∀ w, s.pending = some w → (∀ rest, s.inputs ≠ .reset :: rest) → step s = .refused .beforeFirstReset) ∧
    (∀ w rest, s.inputs = .command w :: rest → step s = .refused .beforeFirstReset)

/-- After the first reset no word on the port traps, faults or is refused (60_exceptions.md rules R236, R238): the step of
every state answers a next state, but for one case, reset asserted while a command holds, which is a fault. The model's
choices in it: a hold is a step that answers, where 93_implementation_defined.md row 11 says `stuck` (log entry 6); reset of
a held command is the fault of its row 2 (log entry 7); no command has a fault of its own (log entry 13). -/
def Obligations.EveryStepAfterResetAnswersANextState : Prop :=
  ∀ s : State, s.resetDone = true →
    (∃ t, step s = .next t ∧ t.resetDone = true ∧ t.params = s.params) ∨
    (holding s ∧ ∃ rest, s.inputs = .reset :: rest ∧
      step s = .fault (.resetDuringCommand { State.resetOf s.params with inputs := rest }))

/-- Rules R34 and R35 (and R27, R188 and the queue bounds of R265): every step keeps the invariant, from every state that
meets it. -/
def Obligations.EveryStepKeepsTheInvariant : Prop :=
  ∀ s t : State, s.Inv → step s = .next t → t.Inv

/-- Reset meets the invariant for every legal build of the block. -/
def Obligations.ResetMeetsTheInvariant : Prop :=
  ∀ p : Params, (State.resetOf p).Inv

/-- Rule R74, for every command: a set reserved-zero bit gives `BAD_OPERAND` and nothing else happens. -/
def Obligations.ReservedBitsAnswerBadOperand : Prop :=
  ∀ (i : Instr) (s : State), i.wellFormed = false → exec i s = .next (answered s badOperand)

/-- Rule R232, for every word the port can carry: a command that completes with a status other than `OK` changed no state,
emitted nothing, and answered `RESULT` = 0 and `FLAGS` = 0. -/
def Obligations.FailingCommandsChangeNothing : Prop :=
  ∀ (s t : State) (w : CommandWord) (r : Response), s.pending = some w → runCommand w s = .next t →
    t.pending = none → t.response = some r → r.status ≠ .ok →
    t = answered s r ∧ r.result = 0 ∧ r.flags = 0

/-- The numeric codes of statuses (60_exceptions.md rule R230; 5 to 15 stand for none) and of event records (10_state.md rule
R29), and the commands that return each status (rules R230, R233): a decoded, well-formed command never answers
`ILLEGAL_OP`, answers `BAD_OPERAND` only as `RX.SETCAP`, and a value error only where the table has it. -/
def Obligations.StatusesComeFromTheirCommandsOnly : Prop :=
  (Status.ok.code = 0 ∧ Status.outOfRange.code = 1 ∧ Status.invalidDigit.code = 2 ∧ Status.badOperand.code = 3 ∧
    Status.illegalOp.code = 4 ∧ (∀ st : Status, Status.ofCode st.code = some st) ∧
    ∀ c : BitVec 4, 5 ≤ c.toNat → Status.ofCode c = none) ∧
  (∀ d : List Byte,
    ((Event.frame d).kindCode = 1 ∧ (Event.frame d).reasonCode = 0 ∧ (Event.frame d).data = d) ∧
    (∀ p ∈ [(DiagReason.stxDetected, 1), (.canDetected, 2), (.bufferOverrun, 3)],
      (Event.diag p.1 d).kindCode = 2 ∧ (Event.diag p.1 d).reasonCode = p.2 ∧ (Event.diag p.1 d).data = d) ∧
    (Event.cancel.kindCode = 3 ∧ Event.cancel.reasonCode = 0 ∧ Event.cancel.data = [])) ∧
  ∀ (i : Instr) (s t : State) (r : Response), s.pending ≠ none → i.wellFormed = true → exec i s = .next t →
    t.pending = none → t.response = some r →
    r.status ≠ .illegalOp ∧
    (r.status = .badOperand → i.opcode = .rxSetcap) ∧
    (r.status = .outOfRange → i.opcode = .bcdFromdec ∨ i.opcode = .bcdTopacked ∨ i.opcode = .bcdCmp) ∧
    (r.status = .invalidDigit → i.opcode = .bcdFrompacked)

/-- Who writes each piece of state (10_state.md rules R23 to R30): the frame of every command. -/
def Obligations.EachRegisterIsWrittenByItsCommandsOnly : Prop :=
  ∀ (i : Instr) (s t : State), exec i s = .next t →
    (i.opcode ≠ .crcInit → i.opcode ≠ .crcByte → t.crc = s.crc) ∧
    (i.opcode ≠ .rxSetcap → t.cap = s.cap) ∧
    (i.opcode ≠ .rxByte → i.opcode ≠ .rxAbort → t.rxStx = s.rxStx ∧ t.rxEsc = s.rxEsc ∧ t.rxBuf = s.rxBuf) ∧
    (i.opcode ≠ .txStart → i.opcode ≠ .txData → i.opcode ≠ .txEnd → t.txOut = s.txOut) ∧
    (i.opcode ≠ .rxByte → t.evOut = s.evOut) ∧
    t.params = s.params ∧ t.txTaken = s.txTaken ∧ t.evTaken = s.evTaken ∧ t.inputs = s.inputs ∧
    t.resetDone = s.resetDone

/-- `CRC` is read by `CRC.BYTE` and `CRC.READ` alone (10_state.md rule R23): no other command's behaviour depends on it. -/
def Obligations.OnlyCrcCommandsReadTheCrcRegister : Prop :=
  ∀ (i : Instr) (s t : State) (c : CrcWord), i.opcode ≠ .crcByte → i.opcode ≠ .crcRead → i.opcode ≠ .crcInit →
    exec i s = .next t → exec i { s with crc := c } = .next { t with crc := c }

/-- The BCD ALU and the stuffer read no register (10_state.md rule R36, 42_framer_tx.md rule R150): with any other
register contents they do the same. -/
def Obligations.BcdAndStufferReadNoRegister : Prop :=
  ∀ (i : Instr) (s t : State) (r : Regs),
    i.opcode ∈ [Opcode.bcdFromdec, .bcdFrompacked, .bcdTopacked, .bcdCmp, .txStart, .txData, .txEnd] →
    exec i s = .next t → t.toRegs = s.toRegs ∧ exec i { s with toRegs := r } = .next { t with toRegs := r }

/-- A response is not retained state (10_state.md rule R31): no command reads the one before it. That it stands on the port
until then is the model's choice (log entry 10). -/
def Obligations.NoCommandReadsAnEarlierResponse : Prop :=
  ∀ (i : Instr) (s t : State) (r : Option Response), s.pending ≠ none → exec i s = .next t → t.pending = none →
    exec i { s with response := r } = .next t

/-- The output streams are append-only (10_state.md rules R28, R29): only reset takes anything away. -/
def Obligations.OutputStreamsAreAppendOnly : Prop :=
  ∀ s t : State, step s = .next t →
    (s.txOut <+: t.txOut ∧ s.evOut <+: t.evOut) ∨ ∃ rest, s.inputs = .reset :: rest ∧ t.txOut = [] ∧ t.evOut = []

/-- Rule R265: a command whose output does not fit in what its queue leaves free holds. It changes nothing, stays on the
port, and only the host's turn takes place (a hold as such a step: log entry 6; reset in it: log entry 7). -/
def Obligations.CommandsHoldWhileTheirOutputDoesNotFit : Prop :=
  ∀ (s : State) (i : Instr), s.resetDone = true → s.pending = some (encode i) →
    ((i = .txStart 0 0 ∧ s.txFree < 2) ∨ (i = .txEnd 0 0 ∧ s.txFree < 2) ∨
      (∃ d : Byte, i = .txData (d.setWidth 64) 0 ∧ s.txFree < (if d = 0x10 then 2 else 1)) ∨
      (∃ c : Byte, i = .rxByte (c.setWidth 64) 0 ∧ s.evFree < (rxStep s.params c s.toRegs).events.length)) →
    exec i s = .next s ∧ hostTurn s

/-- The last sentence of rule R265: from empty queues every single command completes. -/
def Obligations.EveryCommandCompletesFromEmptyQueues : Prop :=
  ∀ (s : State) (w : CommandWord), s.txTaken = s.txOut.length → s.evTaken = s.evOut.length →
    ∃ t r, runCommand w s = .next t ∧ t.pending = none ∧ t.response = some r

/-- The commands rule R62 calls free of state change change none, and issuing one again gives the same response; `CRC.INIT`,
`RX.ABORT` and `RX.SETCAP` change nothing further the second time. -/
def Obligations.IdempotentCommandsChangeNothingFurther : Prop :=
  ∀ (i : Instr) (s : State),
    (i.opcode ∈ [Opcode.bcdFromdec, .bcdFrompacked, .bcdTopacked, .bcdCmp, .crcRead, .rxGetcap, .rxStatus, .blkNop,
        .blkParam] →
      ∃ r, exec i s = .next (answered s r) ∧ exec i (answered s r) = .next (answered s r)) ∧
    (i.opcode ∈ [Opcode.crcInit, .rxAbort, .rxSetcap] → ∃ t, exec i s = .next t ∧ exec i t = .next t)

/-! Block control. -/

/-- `BLK.NOP` (rule R220) and `BLK.PARAM` (rule R221), with the parameter word's fields. -/
def Obligations.BlockCommandsAnswer : Prop :=
  ∀ s : State,
    exec (.blkNop 0 0) s = .next (answered s ⟨.ok, 0, 0⟩) ∧
    (∃ r : Word, exec (.blkParam 0 0) s = .next (answered s ⟨.ok, 0, r⟩) ∧
      r.toNat = s.params.rxBufBytes * 2 ^ 32 + s.params.pCan.toNat * 2 ^ 24 + s.params.pEtx.toNat * 2 ^ 16 +
        s.params.pStx.toNat * 2 ^ 8 + 0x10) ∧
    ∀ a b : Word, a ≠ 0 ∨ b ≠ 0 →
      exec (.blkNop a b) s = .next (answered s badOperand) ∧ exec (.blkParam a b) s = .next (answered s badOperand)

/-! The BCD ALU. -/

/-- `BCD.FROMDEC` (rule R105): the range check is on the signed value, nothing wraps, and no state is written. -/
def Obligations.FromdecValidatesTheRange : Prop :=
  ∀ (s : State) (a b : Word),
    (b ≠ 0 → exec (.bcdFromdec a b) s = .next (answered s badOperand)) ∧
    (a.toInt < -500000000000 ∨ 499999999999 < a.toInt →
      exec (.bcdFromdec a 0) s = .next (answered s outOfRange)) ∧
    (-500000000000 ≤ a.toInt ∧ a.toInt ≤ 499999999999 →
      exec (.bcdFromdec a 0) s = .next (answered s ⟨.ok, 0, a⟩))

/-- `BCD.FROMPACKED` (rule R106): reserved bits first, then the nibbles, then the number the twelve digits spell, the top
half of the unsigned range standing for negative values (rules R101 to R103). -/
def Obligations.FrompackedReadsTheTwelveDigits : Prop :=
  ∀ (s : State) (a b : Word),
    (2 ^ 48 ≤ a.toNat ∨ b ≠ 0 → exec (.bcdFrompacked a b) s = .next (answered s badOperand)) ∧
    (a.toNat < 2 ^ 48 →
      ((∃ j < 12, 9 < nibble a.toNat j) →
        exec (.bcdFrompacked a 0) s = .next (answered s ⟨.invalidDigit, 0, 0⟩)) ∧
      ((∀ j < 12, nibble a.toNat j ≤ 9) →
        exec (.bcdFrompacked a 0) s = .next (answered s ⟨.ok, 0, BitVec.ofInt 64
          (if spelled a.toNat ≤ 499999999999 then (spelled a.toNat : Int)
           else (spelled a.toNat : Int) - 1000000000000)⟩)))

/-- `BCD.TOPACKED` (rule R107): the result's twelve hexadecimal digits are the decimal digits of the value modulo 10^12,
and its upper bits are zero (rule R104). -/
def Obligations.TopackedWritesTheTwelveDigits : Prop :=
  ∀ (s : State) (a b : Word),
    (b ≠ 0 → exec (.bcdTopacked a b) s = .next (answered s badOperand)) ∧
    (a.toInt < -500000000000 ∨ 499999999999 < a.toInt →
      exec (.bcdTopacked a 0) s = .next (answered s outOfRange)) ∧
    (-500000000000 ≤ a.toInt ∧ a.toInt ≤ 499999999999 →
      ∃ r : Word, exec (.bcdTopacked a 0) s = .next (answered s ⟨.ok, 0, r⟩) ∧ r.toNat < 2 ^ 48 ∧
        ∀ j < 12, (nibble r.toNat j : Int) = a.toInt % 1000000000000 / 10 ^ j % 10)

/-- `BCD.CMP` (rule R108): signed order by value, one flag of EQ, LT, GT, and no reserved bit. -/
def Obligations.CmpOrdersBySignedValue : Prop :=
  ∀ (s : State) (a b : Word),
    (a.toInt < -500000000000 ∨ 499999999999 < a.toInt ∨ b.toInt < -500000000000 ∨ 499999999999 < b.toInt →
      exec (.bcdCmp a b) s = .next (answered s outOfRange)) ∧
    (-500000000000 ≤ a.toInt ∧ a.toInt ≤ 499999999999 → -500000000000 ≤ b.toInt ∧ b.toInt ≤ 499999999999 →
      (a = b → exec (.bcdCmp a b) s = .next (answered s ⟨.ok, 0b001, 0⟩)) ∧
      (a.toInt < b.toInt → exec (.bcdCmp a b) s = .next (answered s ⟨.ok, 0b010, 0xFFFFFFFFFFFFFFFF⟩)) ∧
      (b.toInt < a.toInt → exec (.bcdCmp a b) s = .next (answered s ⟨.ok, 0b100, 1⟩)))

/-- Rule R109: `BCD.TOPACKED` then `BCD.FROMPACKED` of its result returns the value, for every `Bcd` value. -/
def Obligations.PackedRoundTripReturnsTheValue : Prop :=
  ∀ (v : Int) (s : State), -500000000000 ≤ v → v ≤ 499999999999 →
    ∃ p : Word, exec (.bcdTopacked (BitVec.ofInt 64 v) 0) s = .next (answered s ⟨.ok, 0, p⟩) ∧
      ∀ s' : State, exec (.bcdFrompacked p 0) s' = .next (answered s' ⟨.ok, 0, BitVec.ofInt 64 v⟩)

/-- Rule R110: every valid packed form decodes to a `Bcd` value, and `BCD.TOPACKED` of that value returns the same form;
a form with a byte above 0x99 fails with `INVALID_DIGIT`. -/
def Obligations.ValidPackedFormsRoundTrip : Prop :=
  ∀ (p : BitVec 48) (s : State),
    ((∀ j < 12, nibble p.toNat j ≤ 9) →
      ∃ v : Int, -500000000000 ≤ v ∧ v ≤ 499999999999 ∧
        exec (.bcdFrompacked (p.setWidth 64) 0) s = .next (answered s ⟨.ok, 0, BitVec.ofInt 64 v⟩) ∧
        ∀ s' : State, exec (.bcdTopacked (BitVec.ofInt 64 v) 0) s' = .next (answered s' ⟨.ok, 0, p.setWidth 64⟩)) ∧
    ((∃ k < 6, 0x99 < p.toNat / 256 ^ k % 256) →
      exec (.bcdFrompacked (p.setWidth 64) 0) s = .next (answered s ⟨.invalidDigit, 0, 0⟩))

/-- Rule R111: a valid packed form decodes to a negative value exactly when its most significant digit is 5 or more, and
to -1 exactly when all twelve digits are 9. -/
def Obligations.MostSignificantDigitIsTheSign : Prop :=
  ∀ (p : BitVec 48) (s : State), (∀ j < 12, nibble p.toNat j ≤ 9) →
    ∃ r : Word, exec (.bcdFrompacked (p.setWidth 64) 0) s = .next (answered s ⟨.ok, 0, r⟩) ∧
      (r.toInt < 0 ↔ 5 ≤ nibble p.toNat 11) ∧ (r.toInt = -1 ↔ ∀ j < 12, nibble p.toNat j = 9)

/-! The CRC-16 generator. -/

/-- `CRC.INIT` (rule R132) and `CRC.READ` (rule R134). -/
def Obligations.CrcInitAndReadAnswer : Prop :=
  ∀ s : State,
    exec (.crcInit 0 0) s = .next { s with crc := 0, response := some ⟨.ok, 0, 0⟩, pending := none } ∧
    exec (.crcRead 0 0) s = .next (answered s ⟨.ok, 0, s.crc.setWidth 64⟩) ∧
    ∀ a b : Word, a ≠ 0 ∨ b ≠ 0 →
      exec (.crcInit a b) s = .next (answered s badOperand) ∧ exec (.crcRead a b) s = .next (answered s badOperand)

/-- `CRC.BYTE` (rule R133): the register takes `crc_step(CRC, b)`, which is the response's result too; a reserved bit
leaves it as it was. `crc_step` is the bit-serial CRC of rule R136, by the statement CrcStepIsTheBitSerialCrc. -/
def Obligations.CrcByteStepsTheRegister : Prop :=
  ∀ s : State,
    (∀ d : Byte, exec (.crcByte (d.setWidth 64) 0) s =
      .next { s with
        crc := crcStep s.crc d
        response := some ⟨.ok, 0, (crcStep s.crc d).setWidth 64⟩
        pending := none }) ∧
    ∀ a b : Word, 256 ≤ a.toNat ∨ b ≠ 0 → exec (.crcByte a b) s = .next (answered s badOperand)

/-- Rule R136: the three shift-XOR lines after the swap are the byte-at-a-time form of the CRC with polynomial 0x1021,
most significant bit first, for every register value and byte; with seed 0 the checksum is that CRC of the whole sequence,
and its check value over ASCII "123456789" is 0x31C3. -/
def Obligations.CrcStepIsTheBitSerialCrc : Prop :=
  (∀ (r : BitVec 16) (b : BitVec 8), crcStep r b = crcBits r b) ∧
  (∀ bytes : List Byte, checksum16 bytes = bytes.foldl crcBits 0) ∧
  checksum16 [0x31, 0x32, 0x33, 0x34, 0x35, 0x36, 0x37, 0x38, 0x39] = 0x31C3

/-- Rule R135: `CRC.SPAN s` returns `checksum16(s)` and leaves it in `CRC`, from every state; nothing else changes.
That it says so of states whose port is not free or that were never reset is the model's choice (log entry 15). -/
def Obligations.CrcSpanComputesTheChecksum : Prop :=
  ∀ (s : State) (bytes : List Byte),
    issueAll (crcSpan bytes) s = some
      { s with
        crc := bytes.foldl crcStep 0
        response := some ⟨.ok, 0, (bytes.foldl crcStep 0).setWidth 64⟩
        pending := none }

/-- Rule R137: the checksum of an XOR is the XOR of the checksums, leading zero bytes leave the register 0, and after any
prefix each checksum is reached by exactly one value of the last two bytes. -/
def Obligations.ChecksumIsAffineAndLastTwoBytesDecideIt : Prop :=
  (∀ s t : List Byte, s.length = t.length →
    checksum16 (List.zipWith (· ^^^ ·) s t) = checksum16 s ^^^ checksum16 t) ∧
  (∀ (n : Nat) (s : List Byte), checksum16 (List.replicate n 0 ++ s) = checksum16 s) ∧
  ∀ (pre : List Byte) (target : CrcWord), ∃ x y : Byte, checksum16 (pre ++ [x, y]) = target ∧
    ∀ x' y' : Byte, checksum16 (pre ++ [x', y']) = target → x' = x ∧ y' = y

/-! The stuffer. -/

/-- `TX.START` (rule R151) and `TX.END` (rule R153), where the queue has room for their two bytes. -/
def Obligations.TxStartAndEndEmitTheEscapedSentinels : Prop :=
  ∀ s : State,
    (2 ≤ s.txFree →
      exec (.txStart 0 0) s = .next { s with
        txOut := s.txOut ++ [0x10, s.params.pStx], response := some ⟨.ok, 0, 2⟩, pending := none } ∧
      exec (.txEnd 0 0) s = .next { s with
        txOut := s.txOut ++ [0x10, s.params.pEtx], response := some ⟨.ok, 0, 2⟩, pending := none }) ∧
    ∀ a b : Word, a ≠ 0 ∨ b ≠ 0 →
      exec (.txStart a b) s = .next (answered s badOperand) ∧ exec (.txEnd a b) s = .next (answered s badOperand)

/-- `TX.DATA` (rule R152), where the queue has room: a SYN is doubled, every other byte, an STX, ETX or CAN value among
them, is emitted unescaped. -/
def Obligations.TxDataDoublesSynAlone : Prop :=
  ∀ s : State,
    (2 ≤ s.txFree → exec (.txData 0x10 0) s = .next { s with
      txOut := s.txOut ++ [0x10, 0x10], response := some ⟨.ok, 0, 2⟩, pending := none }) ∧
    (∀ d : Byte, d ≠ 0x10 → 1 ≤ s.txFree → exec (.txData (d.setWidth 64) 0) s = .next { s with
      txOut := s.txOut ++ [d], response := some ⟨.ok, 0, 1⟩, pending := none }) ∧
    ∀ a b : Word, 256 ≤ a.toNat ∨ b ≠ 0 → exec (.txData a b) s = .next (answered s badOperand)

/-- Rule R154: `TX.FRAME f` appends exactly the escaped wire form of `f` to `TX_OUT`, where the queue has room for it, and
changes no register and no event. Issuing from states whose port is not free or that were never reset is the model's choice
(log entry 15). -/
def Obligations.TxFrameAppendsTheWireForm : Prop :=
  ∀ (s : State) (inner : List Byte),
    let f := [s.params.pStx] ++ inner ++ [s.params.pEtx]
    let w := [0x10, s.params.pStx] ++ (inner.flatMap fun d => if d = 0x10 then [0x10, 0x10] else [d]) ++
      [0x10, s.params.pEtx]
    wire s.params f = w ∧
    (w.length ≤ s.txFree → ∃ is, txFrame s.params f = some is ∧
      issueAll is s = some { s with txOut := s.txOut ++ w, response := some ⟨.ok, 0, 2⟩, pending := none })

/-- Rule R155: the wire form of a frame of length `n` has `n + 2 + c` bytes, `c` the SYN bytes strictly inside it. -/
def Obligations.WireLengthCountsInnerSyns : Prop :=
  ∀ (p : Params) (inner : List Byte),
    (wire p ([p.pStx] ++ inner ++ [p.pEtx])).length = (inner.length + 2) + 2 + inner.count 0x10

/-- Rule R156: read from the left, the SYN pairs of a wire form are one SYN STX, one SYN SYN for each inner SYN, and one
SYN ETX; none is left open and none is a SYN CAN. -/
def Obligations.WireFormHasNoOtherSynPairs : Prop :=
  ∀ (p : Params) (inner : List Byte),
    ∃ pairs, synPairs (wire p ([p.pStx] ++ inner ++ [p.pEtx])) = some pairs ∧
      pairs = [p.pStx] ++ List.replicate (inner.count 0x10) 0x10 ++ [p.pEtx] ∧ p.pCan ∉ pairs

/-- Rule R80: `TX.FRAME` expands to `TX.START`, one `TX.DATA` for each inner byte in order, and `TX.END`; it is refused, and
expands to nothing, unless it is given at least two bytes with `P_STX` first and `P_ETX` last. -/
def Obligations.TxFrameExpandsFramesAndNothingElse : Prop :=
  ∀ (p : Params) (f : List Byte) (is : List Instr),
    txFrame p f = some is ↔
      ∃ inner : List Byte, f = [p.pStx] ++ inner ++ [p.pEtx] ∧
        is = [.txStart 0 0] ++ inner.map (fun d => .txData (d.setWidth 64) 0) ++ [.txEnd 0 0]

/-! The de-stuffer. -/

/-- Rules R173 and R174, with no escape pending and no overrun: an ordinary byte is appended whatever its value and in
either phase; a SYN is remembered and not appended. -/
def Obligations.UnescapedByteIsDataAndSynIsRemembered : Prop :=
  ∀ (s : State) (c : Byte), s.rxEsc = false → s.rxBuf.length ≤ s.cap.toNat →
    (c ≠ 0x10 → exec (.rxByte (c.setWidth 64) 0) s = .next
      (received s { s.toRegs with rxBuf := s.rxBuf ++ [c] } [] (rxWord (s.rxBuf.length + 1) 0x0))) ∧
    (c = 0x10 → exec (.rxByte (c.setWidth 64) 0) s = .next
      (received s { s.toRegs with rxEsc := true } [] (rxWord s.rxBuf.length 0x8)))

/-- Rule R172: with no escape pending and a buffer longer than `CAP`, the guard reports and drops the buffer and leaves
`Collecting`, then the arriving byte is processed as usual. -/
def Obligations.OverrunGuardDropsTheBufferNotTheByte : Prop :=
  ∀ (s : State) (c : Byte), s.rxEsc = false → s.cap.toNat < s.rxBuf.length → 1 ≤ s.evFree →
    (c ≠ 0x10 → exec (.rxByte (c.setWidth 64) 0) s = .next
      (received s { s.toRegs with rxBuf := [c], rxStx := false } [.diag .bufferOverrun s.rxBuf] (rxWord 1 0x20))) ∧
    (c = 0x10 → exec (.rxByte (c.setWidth 64) 0) s = .next
      (received s { s.toRegs with rxBuf := [], rxStx := false, rxEsc := true } [.diag .bufferOverrun s.rxBuf]
        (rxWord 0 0x28)))

/-- Rule R175: a resolved STX reports and drops a stale buffer, in either phase, and starts collecting with itself; an
empty buffer gives no diagnostic. The capacity plays no part on the second byte of a pair. -/
def Obligations.ResolvedStxStartsAFrame : Prop :=
  ∀ s : State, s.rxEsc = true →
    (s.rxBuf = [] → exec (.rxByte (s.params.pStx.setWidth 64) 0) s = .next
      (received s { s.toRegs with rxEsc := false, rxStx := true, rxBuf := [s.params.pStx] } [] (rxWord 1 0x0))) ∧
    (s.rxBuf ≠ [] → 1 ≤ s.evFree → exec (.rxByte (s.params.pStx.setWidth 64) 0) s = .next
      (received s { s.toRegs with rxEsc := false, rxStx := true, rxBuf := [s.params.pStx] }
        [.diag .stxDetected s.rxBuf] (rxWord 1 0x10)))

/-- Rule R176: a resolved ETX completes the frame while collecting; with no STX seen it is appended as a normal byte. -/
def Obligations.ResolvedEtxCompletesOrIsData : Prop :=
  ∀ s : State, s.rxEsc = true →
    (s.rxStx = true → 1 ≤ s.evFree → exec (.rxByte (s.params.pEtx.setWidth 64) 0) s = .next
      (received s { s.toRegs with rxEsc := false, rxStx := false, rxBuf := [] }
        [.frame (s.rxBuf ++ [s.params.pEtx])] (rxWord 0 0x1))) ∧
    (s.rxStx = false → exec (.rxByte (s.params.pEtx.setWidth 64) 0) s = .next
      (received s { s.toRegs with rxEsc := false, rxBuf := s.rxBuf ++ [s.params.pEtx] } []
        (rxWord (s.rxBuf.length + 1) 0x0)))

/-- Rule R177: a resolved CAN reports the buffer, empty or not and in either phase, then cancels the read. -/
def Obligations.ResolvedCanCancelsTheRead : Prop :=
  ∀ s : State, s.rxEsc = true → 2 ≤ s.evFree →
    exec (.rxByte (s.params.pCan.setWidth 64) 0) s = .next
      (received s { s.toRegs with rxEsc := false, rxStx := false, rxBuf := [] }
        [.diag .canDetected s.rxBuf, .cancel] (rxWord 0 0x2))

/-- Rule R178: any other resolved byte, a SYN among them, is appended alone. -/
def Obligations.ResolvedOtherByteIsAppended : Prop :=
  ∀ (s : State) (c : Byte), s.rxEsc = true → c ≠ s.params.pStx → c ≠ s.params.pEtx → c ≠ s.params.pCan →
    exec (.rxByte (c.setWidth 64) 0) s = .next
      (received s { s.toRegs with rxEsc := false, rxBuf := s.rxBuf ++ [c] } [] (rxWord (s.rxBuf.length + 1) 0x0))

/-- `RX.BYTE` with room for two records completes with `OK` on every byte, from every state, and its result has the fields
of rule R179 beside the records it emitted. -/
def Obligations.RxByteResultReportsTheRecords : Prop :=
  ∀ (s : State) (c : Byte), 2 ≤ s.evFree →
    ∃ t evs r, exec (.rxByte (c.setWidth 64) 0) s = .next t ∧ t = received s t.toRegs evs r ∧
      (r.extractLsb' 0 3 = 1 ↔ ∃ d, evs = [.frame d]) ∧
      (r.extractLsb' 0 3 = 2 ↔ ∃ d, evs = [.diag .canDetected d, .cancel]) ∧
      (r.extractLsb' 0 3 = 0 ∨ r.extractLsb' 0 3 = 1 ∨ r.extractLsb' 0 3 = 2) ∧
      (r.getLsbD 3 = t.rxEsc) ∧
      (r.getLsbD 4 = true ↔ ∃ d, Event.diag .stxDetected d ∈ evs) ∧
      (r.getLsbD 5 = true ↔ ∃ d, Event.diag .bufferOverrun d ∈ evs) ∧
      r.extractLsb' 6 26 = 0 ∧
      r.extractLsb' 32 32 = BitVec.ofNat 32 t.rxBuf.length

/-- Rule R184: the records of one `RX.BYTE` are none, one overrun diagnostic, one STX diagnostic, one frame, or a CAN
diagnostic then a cancellation; the guard fires only with no escape pending, the others only with one pending. -/
def Obligations.OneRxByteEmitsOneKindOfOutcome : Prop :=
  ∀ (a b : Word) (s t : State), exec (.rxByte a b) s = .next t →
    ∃ evs, t.evOut = s.evOut ++ evs ∧
      (evs = [] ∨
        (s.rxEsc = false ∧ evs = [.diag .bufferOverrun s.rxBuf]) ∨
        (s.rxEsc = true ∧ evs = [.diag .stxDetected s.rxBuf]) ∨
        (s.rxEsc = true ∧ evs = [.frame (s.rxBuf ++ [s.params.pEtx])]) ∨
        (s.rxEsc = true ∧ evs = [.diag .canDetected s.rxBuf, .cancel]))

/-- Rule R187: when a read ends, by a frame or a cancellation, the buffer is empty and the de-stuffer is in `Scanning`. -/
def Obligations.EndedReadLeavesNothingBehind : Prop :=
  ∀ (a b : Word) (s t : State) (evs : List Event), exec (.rxByte a b) s = .next t → t.evOut = s.evOut ++ evs →
    ((∃ d, Event.frame d ∈ evs) ∨ Event.cancel ∈ evs) → t.rxBuf = [] ∧ t.rxStx = false ∧ t.rxEsc = false

/-- `RX.ABORT` (rule R180): the read ends without an outcome, a pending escape with it; nothing is emitted. -/
def Obligations.AbortDropsTheReadSilently : Prop :=
  ∀ s : State,
    exec (.rxAbort 0 0) s = .next (received s { s.toRegs with rxBuf := [], rxStx := false, rxEsc := false } [] 0) ∧
    ∀ a b : Word, a ≠ 0 ∨ b ≠ 0 → exec (.rxAbort a b) s = .next (answered s badOperand)

/-- `RX.SETCAP` (rule R181): values up to `RX_BUF_BYTES - 1` are taken, no buffer is flushed, and any other value or a
reserved bit leaves `CAP` as it was. -/
def Obligations.SetcapTakesLegalCapacitiesOnly : Prop :=
  ∀ (s : State) (a b : Word),
    (b = 0 → a.toNat ≤ s.params.rxBufBytes - 1 →
      exec (.rxSetcap a b) s = .next (received s { s.toRegs with cap := a.setWidth 32 } [] a)) ∧
    (b ≠ 0 ∨ s.params.rxBufBytes - 1 < a.toNat → exec (.rxSetcap a b) s = .next (answered s badOperand))

/-- `RX.GETCAP` (rule R182) and `RX.STATUS` (rule R183), which change nothing. -/
def Obligations.GetcapAndStatusReadTheDestuffer : Prop :=
  ∀ s : State,
    exec (.rxGetcap 0 0) s = .next (answered s ⟨.ok, 0, s.cap.setWidth 64⟩) ∧
    (∃ r : Word, exec (.rxStatus 0 0) s = .next (answered s ⟨.ok, 0, r⟩) ∧
      r.getLsbD 0 = s.rxStx ∧ r.getLsbD 1 = s.rxEsc ∧ r.extractLsb' 2 30 = 0 ∧
      r.extractLsb' 32 32 = BitVec.ofNat 32 s.rxBuf.length) ∧
    ∀ a b : Word, a ≠ 0 ∨ b ≠ 0 →
      exec (.rxGetcap a b) s = .next (answered s badOperand) ∧ exec (.rxStatus a b) s = .next (answered s badOperand)

/-- Rule R185: what the stuffer sends, the de-stuffer delivers. From any state with no escape pending, feeding the wire form
of a frame that fits emits at most one diagnostic about the old buffer and then exactly the frame, for every inner byte
value, and leaves the de-stuffer ready for the next. Issuing from states whose port is not free or that were never reset is
the model's choice (log entry 15). -/
def Obligations.StuffedFrameIsDeliveredExactly : Prop :=
  ∀ (s : State) (inner : List Byte),
    let f := [s.params.pStx] ++ inner ++ [s.params.pEtx]
    s.rxEsc = false → f.length - 1 ≤ s.cap.toNat → 2 ≤ s.evFree →
    ∃ t, issueAll (rxFeed (wire s.params f)) s = some t ∧
      t.evOut = s.evOut ++
        (if s.cap.toNat < s.rxBuf.length then [.diag .bufferOverrun s.rxBuf]
         else if s.rxBuf = [] then [] else [.diag .stxDetected s.rxBuf]) ++ [.frame f] ∧
      t.rxStx = false ∧ t.rxEsc = false ∧ t.rxBuf = [] ∧ t.crc = s.crc ∧ t.cap = s.cap ∧ t.txOut = s.txOut

/-- Rule R186: from an idle de-stuffer (the reset state's), a frame of length `n` is delivered exactly when
`n - 1 ≤ CAP`. A longer one overruns when the buffer holds `CAP + 1` bytes, and its closing ETX ends up as data.
Issuing from states whose port is not free or that were never reset is the model's choice (log entry 15). -/
def Obligations.FrameIsDeliveredExactlyWhenItFits : Prop :=
  ∀ (s : State) (inner : List Byte),
    let f := [s.params.pStx] ++ inner ++ [s.params.pEtx]
    s.rxEsc = false → s.rxStx = false → s.rxBuf = [] → f.length ≤ s.evFree →
    ∃ t evs, issueAll (rxFeed (wire s.params f)) s = some t ∧ t.evOut = s.evOut ++ evs ∧
      ((∃ d, Event.frame d ∈ evs) ↔ f.length - 1 ≤ s.cap.toNat) ∧
      (s.cap.toNat = 102400 → ((∃ d, Event.frame d ∈ evs) ↔ f.length ≤ 102401)) ∧
      (s.cap.toNat < f.length - 1 →
        evs.head? = some (.diag .bufferOverrun (f.take (s.cap.toNat + 1))) ∧
        t.rxStx = false ∧ t.rxBuf.getLast? = some s.params.pEtx)

/-! Assembler and listing form. -/

/-- For every row of the opcode map, by its operand class: a literal outside the class's range is refused rather than
truncated, and one inside it is encoded as its 64-bit pattern; a row of two operands takes two literals (30_encoding.md
rule R77). -/
def Obligations.AssemblerRefusesLiteralsOutOfRange : Prop :=
  ∀ (o : Opcode) (x y : Int),
    (operandClass o = .noOperand → assembleCommand o [] = .ok (o.instr 0 0)) ∧
    (operandClass o ∈ [OperandClass.i64, .p48, .u8, .u32] →
      (literalFits (operandClass o) x → assembleCommand o [x] = .ok (o.instr (BitVec.ofInt 64 x) 0)) ∧
      (¬ literalFits (operandClass o) x → assembleCommand o [x] = .error .outOfRange)) ∧
    (operandClass o = .i64x2 →
      (literalFits .i64x2 x ∧ literalFits .i64x2 y →
        assembleCommand o [x, y] = .ok (o.instr (BitVec.ofInt 64 x) (BitVec.ofInt 64 y))) ∧
      (¬ (literalFits .i64x2 x ∧ literalFits .i64x2 y) → assembleCommand o [x, y] = .error .outOfRange))

/-- Every command the assembler makes is well formed (30_encoding.md rules R74, R77): no reserved bit can be written in
assembler syntax. -/
def Obligations.AssembledCommandsAreWellFormed : Prop :=
  ∀ (o : Opcode) (xs : List Int) (i : Instr), assembleCommand o xs = .ok i → i.wellFormed = true ∧ i.opcode = o
end

