-- ==== Sys2Proof/Laws/Operands.lean ====
section
/-! SUPPORT. The operand classes as arithmetic: which operand fields are well formed, and what is read from them. -/

namespace Sys2Proof.Machine

theorem extractLsb'_high_eq_zero (a : Word) (n k : Nat) (h : n + k = 64) :
    a.extractLsb' n k = 0 ↔ a.toNat < 2 ^ n := by
  constructor
  · intro h0
    have h1 := congrArg BitVec.toNat h0
    simp only [BitVec.extractLsb'_toNat, Nat.shiftRight_eq_div_pow, BitVec.toNat_ofNat, BitVec.ofNat_eq_ofNat,
      Nat.zero_mod] at h1
    have h2 : a.toNat / 2 ^ n < 2 ^ k := by
      rw [Nat.div_lt_iff_lt_mul (by positivity), ← Nat.pow_add, Nat.add_comm k n, h]
      exact a.isLt
    rw [Nat.mod_eq_of_lt h2] at h1
    exact (Nat.div_eq_zero_iff_lt (by positivity)).mp h1
  · intro h0
    apply BitVec.eq_of_toNat_eq
    simp [Nat.shiftRight_eq_div_pow, Nat.div_eq_of_lt h0]

@[simp] theorem reservedClear_noOperand (a b : Word) : reservedClear .noOperand a b = true ↔ a = 0 ∧ b = 0 := by
  simp [reservedClear]

@[simp] theorem reservedClear_i64 (a b : Word) : reservedClear .i64 a b = true ↔ b = 0 := by
  simp [reservedClear]

@[simp] theorem reservedClear_p48 (a b : Word) : reservedClear .p48 a b = true ↔ a.toNat < 2 ^ 48 ∧ b = 0 := by
  rw [reservedClear, Bool.and_eq_true, beq_iff_eq, beq_iff_eq, extractLsb'_high_eq_zero a 48 16 rfl]

@[simp] theorem reservedClear_u8 (a b : Word) : reservedClear .u8 a b = true ↔ a.toNat < 2 ^ 8 ∧ b = 0 := by
  rw [reservedClear, Bool.and_eq_true, beq_iff_eq, beq_iff_eq, extractLsb'_high_eq_zero a 8 56 rfl]

@[simp] theorem reservedClear_u32 (a b : Word) : reservedClear .u32 a b = true ↔ a.toNat < 2 ^ 32 ∧ b = 0 := by
  rw [reservedClear, Bool.and_eq_true, beq_iff_eq, beq_iff_eq, extractLsb'_high_eq_zero a 32 32 rfl]

@[simp] theorem reservedClear_i64x2 (a b : Word) : reservedClear .i64x2 a b = true := rfl

/-- The byte operands `TX.DATA`, `RX.BYTE` and `CRC.BYTE` are given. -/
@[simp] theorem byteOperand_setWidth (c : Byte) : byteOperand (c.setWidth 64) = c := by
  apply BitVec.eq_of_toNat_eq
  have := c.isLt
  simp [byteOperand]
  omega

@[simp] theorem u32Operand_setWidth (c : BitVec 32) : u32Operand (c.setWidth 64) = c := by
  apply BitVec.eq_of_toNat_eq
  have := c.isLt
  simp [u32Operand]
  omega

theorem u32Operand_eq (a : Word) : u32Operand a = a.setWidth 32 := by
  apply BitVec.eq_of_toNat_eq
  simp [u32Operand]

theorem reservedClear_byte (c : Byte) : reservedClear .u8 (c.setWidth 64) 0 = true := by
  have := c.isLt
  simp
  omega

/-- A set reserved bit, seen from outside: the operand is too large for its class, or `B` is not zero. -/
theorem not_reservedClear_u8 {a b : Word} (h : 256 ≤ a.toNat ∨ b ≠ 0) : reservedClear .u8 a b = false := by
  rw [← Bool.not_eq_true, reservedClear_u8]
  rintro ⟨ha, hb⟩
  rcases h with h | h
  · omega
  · exact h hb

theorem not_reservedClear_p48 {a b : Word} (h : 2 ^ 48 ≤ a.toNat ∨ b ≠ 0) : reservedClear .p48 a b = false := by
  rw [← Bool.not_eq_true, reservedClear_p48]
  rintro ⟨ha, hb⟩
  rcases h with h | h
  · omega
  · exact h hb

theorem not_reservedClear_u32 {a b : Word} (h : 2 ^ 32 ≤ a.toNat ∨ b ≠ 0) : reservedClear .u32 a b = false := by
  rw [← Bool.not_eq_true, reservedClear_u32]
  rintro ⟨ha, hb⟩
  rcases h with h | h
  · omega
  · exact h hb

theorem not_reservedClear_noOperand {a b : Word} (h : a ≠ 0 ∨ b ≠ 0) : reservedClear .noOperand a b = false := by
  rw [← Bool.not_eq_true, reservedClear_noOperand]
  tauto

theorem not_reservedClear_i64 {a b : Word} (h : b ≠ 0) : reservedClear .i64 a b = false := by
  rw [← Bool.not_eq_true, reservedClear_i64]
  exact h

theorem wellFormed_crcByte (c : Byte) : (Instr.crcByte (c.setWidth 64) 0).wellFormed = true := reservedClear_byte c
theorem wellFormed_txData (c : Byte) : (Instr.txData (c.setWidth 64) 0).wellFormed = true := reservedClear_byte c
theorem wellFormed_rxByte (c : Byte) : (Instr.rxByte (c.setWidth 64) 0).wellFormed = true := reservedClear_byte c

end Sys2Proof.Machine
end

