-- ==== Sys2Proof/Laws/Bcd.lean ====
section
/-! SUPPORT. Digits of a number in a base, the packed form's nibbles, and the two directions of the BCD mapping as sums of
digits (spec/40_bcd.md rules R101 to R104). -/

namespace Sys2Proof.Machine

open Sys2Proof.Config

/-- A number spelled with `n` digits of base `b` is below `b ^ n`. -/
theorem digitSum_lt (b : Nat) (hb : 0 < b) (f : Nat → Nat) (n : Nat) (h : ∀ j < n, f j < b) :
    ((List.range n).map fun j => f j * b ^ j).sum < b ^ n := by
  induction n with
  | zero => simp
  | succ n ih =>
    rw [List.sum_range_succ, Nat.pow_succ]
    have h1 := ih fun j hj => h j (by omega)
    have h2 : f n * b ^ n ≤ (b - 1) * b ^ n := Nat.mul_le_mul_right _ (by have := h n (by omega); omega)
    have h3 : (b - 1) * b ^ n + b ^ n = b ^ n * b := by
      rw [← Nat.succ_mul, Nat.succ_eq_add_one, Nat.sub_add_cancel hb, Nat.mul_comm]
    omega

/-- Digit `j` of the number those digits spell is the `j`-th of them. -/
theorem digitSum_digit (b : Nat) (hb : 0 < b) (f : Nat → Nat) (n : Nat) (h : ∀ j < n, f j < b) (j : Nat) (hj : j < n) :
    ((List.range n).map fun j => f j * b ^ j).sum / b ^ j % b = f j := by
  induction n with
  | zero => omega
  | succ n ih =>
    rw [List.sum_range_succ]
    have hp : 0 < b ^ j := Nat.pow_pos hb
    by_cases hjn : j = n
    · subst hjn
      rw [Nat.add_mul_div_right _ _ hp, Nat.div_eq_of_lt (digitSum_lt b hb f j fun i hi => h i (by omega)), Nat.zero_add,
        Nat.mod_eq_of_lt (h j (by omega))]
    · have hd : f n * b ^ n = (f n * b ^ (n - j - 1) * b) * b ^ j := by
        rw [Nat.mul_assoc, Nat.mul_assoc, ← Nat.pow_succ', ← Nat.pow_add]
        congr 2
        omega
      rw [hd, Nat.add_mul_div_right _ _ hp, Nat.add_mul_mod_self_right]
      exact ih (fun i hi => h i (by omega)) (by omega)

/-- The `n` lowest digits of a number spell it modulo `b ^ n`. -/
theorem digitSum_of_number (b m n : Nat) : ((List.range n).map fun j => m / b ^ j % b * b ^ j).sum = m % b ^ n := by
  induction n with
  | zero => simp [Nat.mod_one]
  | succ n ih => rw [List.sum_range_succ, ih, Nat.mod_pow_succ, Nat.mul_comm (b ^ n)]

/-- A sum over twelve digits, written out. -/
theorem sum_range_twelve (f : Nat → Nat) : ((List.range 12).map f).sum =
    f 0 + f 1 + f 2 + f 3 + f 4 + f 5 + f 6 + f 7 + f 8 + f 9 + f 10 + f 11 := by
  simp only [List.sum_range_succ, List.range_zero, List.map_nil, List.sum_nil, Nat.zero_add]

/-- A sum over six bytes, written out. -/
theorem sum_range_six (f : Nat → Nat) : ((List.range 6).map f).sum = f 0 + f 1 + f 2 + f 3 + f 4 + f 5 := by
  simp only [List.sum_range_succ, List.range_zero, List.map_nil, List.sum_nil, Nat.zero_add]

/-- The high nibble of packed byte `k` is hexadecimal digit `11 - 2k` of the field (20_memory.md rules R53, R55). -/
theorem highNibble_packedByte (a : Word) (k : Nat) (hk : k < 6) :
    highNibble (packedByte a k) = a.toNat / 16 ^ (11 - 2 * k) % 16 := by
  simp only [highNibble, packedByte, BitVec.extractLsb'_toNat, Nat.shiftRight_eq_div_pow]
  interval_cases k <;> simp <;> omega

/-- The low nibble of packed byte `k` is hexadecimal digit `10 - 2k` of the field (20_memory.md rules R53, R55). -/
theorem lowNibble_packedByte (a : Word) (k : Nat) (hk : k < 6) :
    lowNibble (packedByte a k) = a.toNat / 16 ^ (10 - 2 * k) % 16 := by
  simp only [lowNibble, packedByte, BitVec.extractLsb'_toNat, Nat.shiftRight_eq_div_pow]
  interval_cases k <;> simp

/-- Concatenation of bit vectors as arithmetic. -/
theorem append_toNat {n m : Nat} (x : BitVec n) (y : BitVec m) : (x ++ y).toNat = x.toNat * 2 ^ m + y.toNat := by
  rw [BitVec.toNat_append, ← Nat.shiftLeft_add_eq_or_of_lt y.isLt, Nat.shiftLeft_eq]

theorem digit_lt (d j : Nat) : digit d j < 10 := Nat.mod_lt _ (by omega)

/-- A packed byte of a magnitude holds its two digits (40_bcd.md rule R104). -/
theorem packByte_toNat (d k : Nat) : (packByte d k).toNat = digit d (11 - 2 * k) * 16 + digit d (10 - 2 * k) := by
  have h1 := digit_lt d (11 - 2 * k)
  have h2 := digit_lt d (10 - 2 * k)
  simp only [packByte, append_toNat, BitVec.toNat_ofNat]
  omega

/-- The packed form's hexadecimal digits are the magnitude's decimal digits (40_bcd.md rule R104). -/
theorem packedOfValue_toNat (v : Int) :
    (packedOfValue v).toNat = ((List.range 12).map fun j => digit (rawOfValue v) j * 16 ^ j).sum := by
  rw [sum_range_twelve, packedOfValue]
  generalize rawOfValue v = d
  simp only [append_toNat, packByte_toNat, Nat.reduceMul, Nat.reduceSub]
  generalize digit d = f
  norm_num
  ring

/-- The magnitude six packed bytes spell is the one their hexadecimal digits spell in base ten (40_bcd.md rule R102). -/
theorem rawOf_eq_digitSum (a : Word) :
    rawOf a = ((List.range 12).map fun j => a.toNat / 16 ^ j % 16 * 10 ^ j).sum := by
  rw [rawOf, sum_range_six, sum_range_twelve]
  simp only [pairValue, highNibble_packedByte, lowNibble_packedByte, Nat.reduceLT, Nat.reduceMul, Nat.reduceSub]
  generalize (fun j => a.toNat / 16 ^ j % 16) = f
  norm_num
  ring

/-- A `Bcd` value, as bounds on the signed operand (40_bcd.md rule R100). -/
theorem isBcd_iff (a : Word) : isBcd (sint64 a) = true ↔ -500000000000 ≤ a.toInt ∧ a.toInt ≤ 499999999999 := by
  rw [isBcd, Bool.and_eq_true, decide_eq_true_eq, decide_eq_true_eq]
  rfl

/-- The byte-to-value mapping without the modulus (40_bcd.md rule R103). -/
theorem valueOfRaw_eq (n : Nat) (h : n < 1000000000000) :
    valueOfRaw n = if n ≤ 499999999999 then (n : Int) else (n : Int) - 1000000000000 := by
  simp only [valueOfRaw, bcdMin, bcdMod]
  split <;> omega

end Sys2Proof.Machine
end

