-- ==== Sys2Proof/Laws/Encoding.lean ====
section
/-! SUPPORT. The fields of a command word, and the opcode map's two directions. -/

namespace Sys2Proof

theorem wordOp_commandWord (op : Byte) (a b : Word) : wordOp (commandWord op a b) = op := by
  ext i hi
  simp only [wordOp, commandWord, BitVec.getElem_extractLsb', BitVec.getLsbD_append]
  simp [hi]

theorem wordA_commandWord (op : Byte) (a b : Word) : wordA (commandWord op a b) = a := by
  ext i hi
  have h1 : ¬ 8 + i < 8 := by omega
  simp only [wordA, commandWord, BitVec.getElem_extractLsb', BitVec.getLsbD_append]
  simp [hi]

theorem wordB_commandWord (op : Byte) (a b : Word) : wordB (commandWord op a b) = b := by
  ext i hi
  have h1 : ¬ 72 + i < 8 := by omega
  have h2 : ¬ 72 + i - 8 < 64 := by omega
  have h3 : 72 + i - 8 - 64 = i := by omega
  simp only [wordB, commandWord, BitVec.getElem_extractLsb', BitVec.getLsbD_append]
  simp [h1, h2, h3, BitVec.getLsbD_eq_getElem hi]

/-- A command word is its three fields. -/
theorem commandWord_fields (w : CommandWord) : commandWord (wordOp w) (wordA w) (wordB w) = w := by
  apply BitVec.eq_of_getLsbD_eq
  intro i hi
  simp only [wordOp, wordA, wordB, commandWord, BitVec.getLsbD_append, BitVec.getLsbD_extractLsb']
  split
  · simp [*]
  · split
    · have : 8 + (i - 8) = i := by omega
      simp [*]
    · have h : 72 + (i - 8 - 64) = i := by omega
      have h' : i - 8 - 64 < 64 := by omega
      simp [h, h']

theorem opcodeOf_code (o : Opcode) : opcodeOf o.code = some o := by
  cases o <;> rfl

theorem code_of_opcodeOf : ∀ (op : Byte) (o : Opcode), opcodeOf op = some o → o.code = op := by
  decide

/-- The ranges of 30_encoding.md rule R76 are unassigned. -/
theorem opcodeOf_unassigned : ∀ op : Byte,
    ((0x05 ≤ op.toNat ∧ op.toNat ≤ 0x0F) ∨ (0x13 ≤ op.toNat ∧ op.toNat ≤ 0x1F) ∨ (0x23 ≤ op.toNat ∧ op.toNat ≤ 0x2F) ∨
      (0x35 ≤ op.toNat ∧ op.toNat ≤ 0xEF) ∨ (0xF1 ≤ op.toNat ∧ op.toNat ≤ 0xFF)) → opcodeOf op = none := by
  decide

theorem Instr.instr_opcode (i : Instr) : i.opcode.instr i.opA i.opB = i := by
  cases i <;> rfl

@[simp] theorem Opcode.instr_opcode (o : Opcode) (a b : Word) : (o.instr a b).opcode = o := by
  cases o <;> rfl

@[simp] theorem Opcode.instr_opA (o : Opcode) (a b : Word) : (o.instr a b).opA = a := by
  cases o <;> rfl

@[simp] theorem Opcode.instr_opB (o : Opcode) (a b : Word) : (o.instr a b).opB = b := by
  cases o <;> rfl

/-- Decoding a word made of three fields. -/
theorem decode_commandWord (op : Byte) (a b : Word) :
    decode (commandWord op a b) =
      match opcodeOf op with
      | some o => .ok (o.instr a b)
      | none => .error (.illegalOp op) := by
  cases h : opcodeOf op <;> simp [decode, wordOp_commandWord, wordA_commandWord, wordB_commandWord, h]

end Sys2Proof
end

