-- ==== Sys2Proof/Laws/State.lean ====
section
/-! SUPPORT. What each named update of the state leaves in each field: one lemma per field per update, true by `rfl`. -/

namespace Sys2Proof.Machine

section complete
variable (s : State) (e : Effect)
@[simp] theorem State.complete_toRegs : (s.complete e).toRegs = e.regs := rfl
@[simp] theorem State.complete_txOut : (s.complete e).txOut = s.txOut ++ e.tx := rfl
@[simp] theorem State.complete_evOut : (s.complete e).evOut = s.evOut ++ e.ev := rfl
@[simp] theorem State.complete_params : (s.complete e).params = s.params := rfl
@[simp] theorem State.complete_txTaken : (s.complete e).txTaken = s.txTaken := rfl
@[simp] theorem State.complete_evTaken : (s.complete e).evTaken = s.evTaken := rfl
@[simp] theorem State.complete_pending : (s.complete e).pending = none := rfl
@[simp] theorem State.complete_response : (s.complete e).response = some e.resp := rfl
@[simp] theorem State.complete_inputs : (s.complete e).inputs = s.inputs := rfl
@[simp] theorem State.complete_resetDone : (s.complete e).resetDone = s.resetDone := rfl
end complete

section effects
variable (s : State) (r : Word) (st : Status)
@[simp] theorem respondOk_regs : (respondOk s r).regs = s.toRegs := rfl
@[simp] theorem respondOk_tx : (respondOk s r).tx = [] := rfl
@[simp] theorem respondOk_ev : (respondOk s r).ev = [] := rfl
@[simp] theorem respondOk_resp : (respondOk s r).resp = ⟨.ok, 0, r⟩ := rfl
@[simp] theorem failWith_regs : (failWith s st).regs = s.toRegs := rfl
@[simp] theorem failWith_tx : (failWith s st).tx = [] := rfl
@[simp] theorem failWith_ev : (failWith s st).ev = [] := rfl
@[simp] theorem failWith_resp : (failWith s st).resp = ⟨st, 0, 0⟩ := rfl
end effects

section accept
variable (s : State) (w : CommandWord)
@[simp] theorem State.acceptCommand_toRegs : (s.acceptCommand w).toRegs = s.toRegs := rfl
@[simp] theorem State.acceptCommand_txOut : (s.acceptCommand w).txOut = s.txOut := rfl
@[simp] theorem State.acceptCommand_evOut : (s.acceptCommand w).evOut = s.evOut := rfl
@[simp] theorem State.acceptCommand_params : (s.acceptCommand w).params = s.params := rfl
@[simp] theorem State.acceptCommand_txTaken : (s.acceptCommand w).txTaken = s.txTaken := rfl
@[simp] theorem State.acceptCommand_evTaken : (s.acceptCommand w).evTaken = s.evTaken := rfl
@[simp] theorem State.acceptCommand_pending : (s.acceptCommand w).pending = some w := rfl
@[simp] theorem State.acceptCommand_response : (s.acceptCommand w).response = none := rfl
@[simp] theorem State.acceptCommand_resetDone : (s.acceptCommand w).resetDone = s.resetDone := rfl
end accept

section consume
variable (s : State) (n : Nat)
@[simp] theorem State.consumeTx_toRegs : (s.consumeTx n).toRegs = s.toRegs := rfl
@[simp] theorem State.consumeTx_txOut : (s.consumeTx n).txOut = s.txOut := rfl
@[simp] theorem State.consumeTx_evOut : (s.consumeTx n).evOut = s.evOut := rfl
@[simp] theorem State.consumeTx_params : (s.consumeTx n).params = s.params := rfl
@[simp] theorem State.consumeTx_txTaken : (s.consumeTx n).txTaken = min (s.txTaken + n) s.txOut.length := rfl
@[simp] theorem State.consumeTx_evTaken : (s.consumeTx n).evTaken = s.evTaken := rfl
@[simp] theorem State.consumeTx_pending : (s.consumeTx n).pending = s.pending := rfl
@[simp] theorem State.consumeTx_resetDone : (s.consumeTx n).resetDone = s.resetDone := rfl
@[simp] theorem State.consumeEv_toRegs : (s.consumeEv n).toRegs = s.toRegs := rfl
@[simp] theorem State.consumeEv_txOut : (s.consumeEv n).txOut = s.txOut := rfl
@[simp] theorem State.consumeEv_evOut : (s.consumeEv n).evOut = s.evOut := rfl
@[simp] theorem State.consumeEv_params : (s.consumeEv n).params = s.params := rfl
@[simp] theorem State.consumeEv_txTaken : (s.consumeEv n).txTaken = s.txTaken := rfl
@[simp] theorem State.consumeEv_evTaken : (s.consumeEv n).evTaken = min (s.evTaken + n) s.evOut.length := rfl
@[simp] theorem State.consumeEv_pending : (s.consumeEv n).pending = s.pending := rfl
@[simp] theorem State.consumeEv_resetDone : (s.consumeEv n).resetDone = s.resetDone := rfl
end consume

section reset
variable (p : Config.Params)
@[simp] theorem State.resetOf_toRegs : (State.resetOf p).toRegs = Regs.reset := rfl
@[simp] theorem State.resetOf_txOut : (State.resetOf p).txOut = [] := rfl
@[simp] theorem State.resetOf_evOut : (State.resetOf p).evOut = [] := rfl
@[simp] theorem State.resetOf_params : (State.resetOf p).params = p := rfl
@[simp] theorem State.resetOf_txTaken : (State.resetOf p).txTaken = 0 := rfl
@[simp] theorem State.resetOf_evTaken : (State.resetOf p).evTaken = 0 := rfl
@[simp] theorem State.resetOf_pending : (State.resetOf p).pending = none := rfl
@[simp] theorem State.resetOf_response : (State.resetOf p).response = none := rfl
@[simp] theorem State.resetOf_inputs : (State.resetOf p).inputs = [] := rfl
@[simp] theorem State.resetOf_resetDone : (State.resetOf p).resetDone = true := rfl
@[simp] theorem State.assertReset_eq (s : State) : s.assertReset = State.resetOf s.params := rfl
end reset

@[simp] theorem State.withFetchWord_pending (s : State) (nbits w : Nat) :
    (s.withFetchWord nbits w).pending = some (BitVec.ofNat 136 (w % 2 ^ nbits)) := rfl
@[simp] theorem State.withFetchWord_toRegs (s : State) (nbits w : Nat) :
    (s.withFetchWord nbits w).toRegs = s.toRegs := rfl
@[simp] theorem State.withFetchWord_resetDone (s : State) (nbits w : Nat) :
    (s.withFetchWord nbits w).resetDone = s.resetDone := rfl

end Sys2Proof.Machine
end

