-- ==== Sys2Proof/Laws/Ops.lean ====
section
/-! SUPPORT. What each shared operation can do, said once: the operand check, completing or holding, the step. -/

namespace Sys2Proof.Machine

open Sys2Proof.Config

/-- The constraints of 00_scope.md rule R5, as facts about any instance's parameters. -/
theorem Params.facts (p : Params) :
    p.pStx ≠ pSyn ∧ p.pEtx ≠ pSyn ∧ p.pCan ≠ pSyn ∧ p.pStx ≠ p.pEtx ∧ p.pStx ≠ p.pCan ∧ p.pEtx ≠ p.pCan ∧
      capReset + 1 ≤ p.rxBufBytes ∧ p.rxBufBytes ≤ 4294967295 ∧ 2 ≤ p.txFifoDepth ∧ 2 ≤ p.evFifoDepth := by
  have h := p.legal
  simp only [legalParams, Bool.and_eq_true, bne_iff_ne, ne_eq, decide_eq_true_eq] at h
  tauto

theorem checked_clear {c : OperandClass} {a b : Word} (h : reservedClear c a b = true) (s : State) (e : Effect) :
    checked c a b s e = e := by simp [checked, h]

theorem checked_set {c : OperandClass} {a b : Word} (h : reservedClear c a b = false) (s : State) (e : Effect) :
    checked c a b s e = failWith s .badOperand := by simp [checked, h]

/-- A command either completes with its whole effect or holds and changes nothing. -/
theorem State.finish_cases (s : State) (e : Effect) :
    (s.fits e = true ∧ s.finish e = s.complete e) ∨ (s.fits e = false ∧ s.finish e = s) := by
  unfold State.finish
  cases s.fits e <;> simp

theorem State.finish_fits {s : State} {e : Effect} (h : s.fits e = true) : s.finish e = s.complete e := by
  simp [State.finish, h]

theorem State.finish_holds {s : State} {e : Effect} (h : s.fits e = false) : s.finish e = s := by
  simp [State.finish, h]

/-- Fitting, as the two bounds of 70_reset_and_hazards.md rule R265. -/
theorem State.fits_iff (s : State) (e : Effect) :
    s.fits e = true ↔ e.tx.length ≤ s.txFree ∧ e.ev.length ≤ s.evFree := by
  simp [State.fits]

/-- A command that emits nothing never holds. -/
theorem State.fits_silent {s : State} {e : Effect} (ht : e.tx = []) (he : e.ev = []) : s.fits e = true := by
  simp [State.fits, ht, he]

/-- A command that emits nothing completes. -/
theorem State.finish_silent {s : State} {e : Effect} (ht : e.tx = []) (he : e.ev = []) :
    s.finish e = { s with toRegs := e.regs, response := some e.resp, pending := none } := by
  rw [State.finish_fits (State.fits_silent ht he)]
  simp [State.complete, ht, he]

@[simp] theorem State.finish_failWith (s : State) (st : Status) :
    s.finish (failWith s st) = { s with response := some ⟨st, 0, 0⟩, pending := none } := by
  rw [State.finish_silent rfl rfl]; rfl

@[simp] theorem State.finish_respondOk (s : State) (r : Word) :
    s.finish (respondOk s r) = { s with response := some ⟨.ok, 0, r⟩, pending := none } := by
  rw [State.finish_silent rfl rfl]; rfl

/-- The operand check answers with the command's effect or with `BAD_OPERAND`. -/
theorem checked_cases (c : OperandClass) (a b : Word) (s : State) (e : Effect) :
    (reservedClear c a b = true ∧ checked c a b s e = e) ∨
      (reservedClear c a b = false ∧ checked c a b s e = failWith s .badOperand) := by
  unfold checked
  cases reservedClear c a b <;> simp

/-- The effect of each command whose reserved bits are zero, if it completes. -/
def bodyOf (i : Instr) (s : State) : Effect :=
  match i with
  | .blkNop _ _ => respondOk s 0
  | .bcdFromdec a _ => if isBcd (sint64 a) then respondOk s a else failWith s .outOfRange
  | .bcdFrompacked a _ =>
    if validPacked (packedBytes a) then respondOk s (uint64 (valueOfRaw (rawOf a))) else failWith s .invalidDigit
  | .bcdTopacked a _ =>
    if isBcd (sint64 a) then respondOk s (zext64 (packedOfValue (sint64 a))) else failWith s .outOfRange
  | .bcdCmp a b =>
    if isBcd (sint64 a) && isBcd (sint64 b) then compareEffect s (sint64 a) (sint64 b) else failWith s .outOfRange
  | .crcInit _ _ => { respondOk s 0 with regs := { s.toRegs with crc := crcSeed } }
  | .crcByte a _ =>
    { respondOk s (zext64 (crcStep s.crc (byteOperand a))) with
      regs := { s.toRegs with crc := crcStep s.crc (byteOperand a) } }
  | .crcRead _ _ => respondOk s (zext64 s.crc)
  | .txStart _ _ => emitBytes s [pSyn, s.params.pStx]
  | .txData a _ => emitBytes s (escapeByte (byteOperand a))
  | .txEnd _ _ => emitBytes s [pSyn, s.params.pEtx]
  | .rxByte a _ => rxByteEffect s (rxStep s.params (byteOperand a) s.toRegs)
  | .rxAbort _ _ => { respondOk s 0 with regs := { s.toRegs with rxBuf := [], rxStx := false, rxEsc := false } }
  | .rxSetcap a _ =>
    if s.params.rxBufBytes - 1 < (u32Operand a).toNat then failWith s .badOperand
    else { respondOk s (zext64 (u32Operand a)) with regs := { s.toRegs with cap := u32Operand a } }
  | .rxGetcap _ _ => respondOk s (zext64 s.cap)
  | .rxStatus _ _ => respondOk s (rxStatusWord s.toRegs)
  | .blkParam _ _ => respondOk s (paramWord s.params)

/-- The effect of each command if it completes: `BAD_OPERAND` when it is ill formed, else its own. -/
def effectOf (i : Instr) (s : State) : Effect :=
  if i.wellFormed then bodyOf i s else failWith s .badOperand

theorem effectOf_wellFormed {i : Instr} (h : i.wellFormed = true) (s : State) : effectOf i s = bodyOf i s := by
  simp [effectOf, h]

theorem effectOf_illFormed {i : Instr} (h : i.wellFormed = false) (s : State) :
    effectOf i s = failWith s .badOperand := by
  simp [effectOf, h]

/-- Every command finishes its effect: it completes with it or holds. -/
theorem exec_eq (i : Instr) (s : State) : exec i s = .next (s.finish (effectOf i s)) := by
  cases i <;> rfl

/-- A well-formed command whose effect fits completes with it. -/
theorem exec_completes {i : Instr} {s : State} (hw : i.wellFormed = true) (hf : s.fits (bodyOf i s) = true) :
    exec i s = .next (s.complete (bodyOf i s)) := by
  rw [exec_eq, effectOf_wellFormed hw, State.finish_fits hf]

/-- The bytes and records a well-formed command emits, and that any other status than `OK` emits nothing: each effect is
a failure, or answers `OK`. -/
theorem bodyOf_cases (i : Instr) (s : State) :
    (∃ st, bodyOf i s = failWith s st) ∨ (bodyOf i s).resp.status = .ok := by
  cases i <;> simp only [bodyOf]
  case bcdFromdec a b => cases isBcd (sint64 a) <;> first | exact .inr rfl | exact .inl ⟨_, rfl⟩
  case bcdFrompacked a b => cases validPacked (packedBytes a) <;> first | exact .inr rfl | exact .inl ⟨_, rfl⟩
  case bcdTopacked a b => cases isBcd (sint64 a) <;> first | exact .inr rfl | exact .inl ⟨_, rfl⟩
  case bcdCmp a b => cases isBcd (sint64 a) && isBcd (sint64 b) <;> first | exact .inr rfl | exact .inl ⟨_, rfl⟩
  case rxSetcap a b => split <;> first | exact .inr rfl | exact .inl ⟨_, rfl⟩
  all_goals exact .inr rfl

/-- A command that answers anything but `OK` has the effect of a failure. -/
theorem effectOf_fails {i : Instr} {s : State} (h : (effectOf i s).resp.status ≠ .ok) :
    ∃ st, effectOf i s = failWith s st := by
  cases hw : i.wellFormed with
  | false => exact ⟨_, effectOf_illFormed hw s⟩
  | true =>
    rw [effectOf_wellFormed hw] at h ⊢
    exact (bodyOf_cases i s).resolve_right h

theorem exec_next {i : Instr} {s t : State} : exec i s = .next t ↔ t = s.finish (effectOf i s) := by
  rw [exec_eq]
  constructor
  · intro h; cases h; rfl
  · intro h; rw [h]

/-- What a word on the port does: its command's meaning, or `ILLEGAL_OP`. -/
theorem runCommand_eq (w : CommandWord) (s : State) :
    ∃ e, runCommand w s = .next (s.finish e) ∧
      ((∃ i, decode w = .ok i ∧ e = effectOf i s) ∨
        ((∃ op, decode w = .error (.illegalOp op)) ∧ e = failWith s .illegalOp)) := by
  cases h : decode w with
  | ok i => exact ⟨effectOf i s, by simp [runCommand, h, exec_eq], .inl ⟨i, rfl, rfl⟩⟩
  | error d =>
    cases d with
    | illegalOp op => exact ⟨failWith s .illegalOp, by simp only [runCommand, h]; rfl, .inr ⟨⟨op, rfl⟩, rfl⟩⟩

/-- The host's actions never touch the parameters, nor undo the reset. -/
theorem serveHost_params (s : State) : s.serveHost.params = s.params := by
  unfold State.serveHost
  split <;> first | rfl | (split <;> rfl)

theorem serveHost_resetDone {s : State} (h : s.resetDone = true) : s.serveHost.resetDone = true := by
  unfold State.serveHost
  split <;> first | exact h | rfl | (split <;> exact h)

/-- The host's turn while a command holds: reset is a fault, anything else takes place. -/
theorem State.whileHolding_cases (s : State) :
    (∃ rest, s.inputs = .reset :: rest ∧ s.whileHolding = .fault (.resetDuringCommand s.serveHost)) ∨
      ((∀ rest, s.inputs ≠ .reset :: rest) ∧ s.whileHolding = .next s.serveHost) := by
  unfold State.whileHolding
  cases h : s.inputs with
  | nil => exact .inr ⟨by simp, rfl⟩
  | cons x rest =>
    cases x with
    | reset => exact .inl ⟨rest, rfl, rfl⟩
    | command w => exact .inr ⟨by simp, rfl⟩
    | consumeTx n => exact .inr ⟨by simp, rfl⟩
    | consumeEv n => exact .inr ⟨by simp, rfl⟩

/-- The event port shows one serialised record for each record the host has not consumed. -/
@[simp] theorem State.evPort_length (s : State) : s.evPort.length = s.evQueued := by
  simp [State.evPort, State.evQueued]

/-- Every next state after the first reset: the command in progress completed, or the host's next action took place. -/
theorem step_cases {s t : State} (hr : s.resetDone = true) (h : step s = .next t) :
    (∃ w e, s.pending = some w ∧ runCommand w s = .next (s.complete e) ∧ s.fits e = true ∧ t = s.complete e ∧
      ((∃ i, decode w = .ok i ∧ e = effectOf i s) ∨
        ((∃ op, decode w = .error (.illegalOp op)) ∧ e = failWith s .illegalOp))) ∨
    t = s.serveHost := by
  simp only [step, portStep, hr, if_true] at h
  cases hp : s.pending with
  | none =>
    rw [hp] at h
    exact .inr (by cases h; rfl)
  | some w =>
    rw [hp] at h
    obtain ⟨e, he, hi⟩ := runCommand_eq w s
    simp only [he] at h
    rcases s.finish_cases e with ⟨hf, hc⟩ | ⟨hf, hc⟩
    · rw [hc] at h he
      simp only [afterRun, State.complete_pending, if_true] at h
      cases h
      exact .inl ⟨w, e, rfl, he, hf, rfl, hi⟩
    · rw [hc] at h
      simp only [afterRun, hp, reduceCtorEq, if_false] at h
      rcases s.whileHolding_cases with ⟨-, -, hw⟩ | ⟨-, hw⟩ <;> rw [hw] at h <;> cases h
      exact .inr rfl

/-- Every next state before the first reset: the reset input, or nothing happened. -/
theorem beforeReset_cases {s t : State} (hr : s.resetDone = false) (h : step s = .next t) :
    (∃ rest, s.inputs = .reset :: rest ∧ t = { State.resetOf s.params with inputs := rest }) ∨
      (s.inputs = [] ∧ t = s) := by
  simp only [step, portStep, hr, Bool.false_eq_true, if_false, State.beforeReset, State.serveHost] at h
  cases hin : s.inputs with
  | nil =>
    simp only [hin] at h
    split at h
    · cases h; exact .inr ⟨rfl, rfl⟩
    · cases h
  | cons x rest =>
    cases x <;> simp only [hin] at h <;> cases h
    exact .inl ⟨rest, rfl, rfl⟩

end Sys2Proof.Machine
end

