-- ==== Sys2Proof/Laws/PerInstr.lean ====
section
/-! SUPPORT. Facts stated per instruction: the `OP` byte of every command's word is its row's (spec/30_encoding.md rules R70,
R75), and it is no other row's. -/

namespace Sys2Proof.Laws.OpcodeByte

/-- The low byte of the command's word selects the command's own row. -/
def Statement (i : Instr) : Prop :=
  wordOp (encode i) = i.opcode.code ∧ opcodeOf (wordOp (encode i)) = some i.opcode

/-- The `OP` byte of an encoded command, for the lemmas below. -/
theorem encode_row (i : Instr) : Statement i := by
  simp [Statement, encode, wordOp_commandWord, opcodeOf_code]

theorem blkNop (a b : Word) : Statement (.blkNop a b) := encode_row _
theorem bcdFromdec (a b : Word) : Statement (.bcdFromdec a b) := encode_row _
theorem bcdFrompacked (a b : Word) : Statement (.bcdFrompacked a b) := encode_row _
theorem bcdTopacked (a b : Word) : Statement (.bcdTopacked a b) := encode_row _
theorem bcdCmp (a b : Word) : Statement (.bcdCmp a b) := encode_row _
theorem crcInit (a b : Word) : Statement (.crcInit a b) := encode_row _
theorem crcByte (a b : Word) : Statement (.crcByte a b) := encode_row _
theorem crcRead (a b : Word) : Statement (.crcRead a b) := encode_row _
theorem txStart (a b : Word) : Statement (.txStart a b) := encode_row _
theorem txData (a b : Word) : Statement (.txData a b) := encode_row _
theorem txEnd (a b : Word) : Statement (.txEnd a b) := encode_row _
theorem rxByte (a b : Word) : Statement (.rxByte a b) := encode_row _
theorem rxAbort (a b : Word) : Statement (.rxAbort a b) := encode_row _
theorem rxSetcap (a b : Word) : Statement (.rxSetcap a b) := encode_row _
theorem rxGetcap (a b : Word) : Statement (.rxGetcap a b) := encode_row _
theorem rxStatus (a b : Word) : Statement (.rxStatus a b) := encode_row _
theorem blkParam (a b : Word) : Statement (.blkParam a b) := encode_row _

end Sys2Proof.Laws.OpcodeByte
end

