-- ==== Sys2Proof/Laws/Pseudo.lean ====
section
/-! SUPPORT. What issuing a command, or a list of commands, does: said once over the command's effect. -/

namespace Sys2Proof.Machine

/-- No command reads the command port's own fields. -/
theorem effectOf_port (i : Instr) (s : State) (w : Option CommandWord) (r : Option Response) :
    effectOf i { s with pending := w, response := r } = effectOf i s := by
  cases i <;> rfl

/-- A command that is issued completes with its effect, or holds. -/
theorem issue_eq (i : Instr) (s : State) :
    issue i s = if s.fits (effectOf i s) then some (s.complete (effectOf i s)) else none := by
  have he : effectOf i (s.acceptCommand (encode i)) = effectOf i s := effectOf_port i s _ _
  have hf : (s.acceptCommand (encode i)).fits (effectOf i s) = s.fits (effectOf i s) := rfl
  simp only [issue, exec_eq, he]
  cases h : s.fits (effectOf i s) with
  | true => rw [State.finish_fits (hf.trans h)]; rfl
  | false => rw [State.finish_holds (hf.trans h)]; rfl

/-- Where the port is free after a reset, issuing is what two steps of the machine do: the port accepts the host's command,
and the command completes (70_reset_and_hazards.md rule R264). -/
theorem step_step_of_issue {i : Instr} {s t : State} {rest : List HostAction} (hr : s.resetDone = true)
    (hp : s.pending = none) (hin : s.inputs = .command (encode i) :: rest)
    (h : issue i { s with inputs := rest } = some t) :
    step s = .next { s.acceptCommand (encode i) with inputs := rest } ∧
      step { s.acceptCommand (encode i) with inputs := rest } = .next t := by
  refine ⟨by simp [step, portStep, hr, hp, State.serveHost, hin], ?_⟩
  let p : State := { s.acceptCommand (encode i) with inputs := rest }
  have hrun : runCommand (encode i) p = exec i p := by
    simp [runCommand, encode, decode_commandWord, opcodeOf_code, Instr.instr_opcode]
  have hissue : exec i p = .next t ∧ t.pending = none := by
    change (match exec i p with
      | .next t => if t.pending = none then some t else none
      | .fault _ => none
      | .refused _ => none) = some t at h
    rw [exec_eq] at h ⊢
    simp only [Option.ite_none_right_eq_some, Option.some.injEq] at h
    exact ⟨by rw [h.2], h.2 ▸ h.1⟩
  change (if s.resetDone then afterRun (runCommand (encode i) p) else p.beforeReset) = .next t
  rw [hrun, hissue.1]
  simp [hr, afterRun, hissue.2]

/-- Two lists of commands, one after the other (20_memory.md rule R63). -/
theorem issueAll_append (xs ys : List Instr) (s : State) :
    issueAll (xs ++ ys) s = (issueAll xs s).bind (issueAll ys) := by
  induction xs generalizing s with
  | nil => rfl
  | cons x xs ih =>
    simp only [List.cons_append, issueAll]
    cases issue x s with
    | none => rfl
    | some t => exact ih t

/-- Appending bytes takes no more than their number from what the wire queue leaves free. -/
theorem txFree_append (s : State) (bs : List Byte) (k : Nat) (h : bs.length + k ≤ s.txFree) (r : Option Response)
    (w : Option CommandWord) : k ≤ State.txFree { s with txOut := s.txOut ++ bs, response := r, pending := w } := by
  simp only [State.txFree, State.txQueued, List.length_append] at *
  omega

/-- Appending records takes no more than their number from what the event queue leaves free. -/
theorem evFree_append (s : State) (evs : List Event) (k : Nat) (h : evs.length + k ≤ s.evFree) (g : Regs)
    (r : Option Response) (w : Option CommandWord) :
    k ≤ State.evFree { s with toRegs := g, evOut := s.evOut ++ evs, response := r, pending := w } := by
  simp only [State.evFree, State.evQueued, List.length_append] at *
  omega

end Sys2Proof.Machine
end

