-- ==== Sys2Proof/Laws/Rx.lean ====
section
/-! SUPPORT. What one raw byte can do to the de-stuffer, said once (spec/43_framer_rx.md rules R171 to R178). -/

namespace Sys2Proof.Machine

open Sys2Proof.Config

@[simp] theorem bufAppend_rxBuf (r : Regs) (b : Byte) : (bufAppend r b).rxBuf = r.rxBuf ++ [b] := rfl
@[simp] theorem bufAppend_rxStx (r : Regs) (b : Byte) : (bufAppend r b).rxStx = r.rxStx := rfl
@[simp] theorem bufAppend_rxEsc (r : Regs) (b : Byte) : (bufAppend r b).rxEsc = r.rxEsc := rfl
@[simp] theorem bufAppend_cap (r : Regs) (b : Byte) : (bufAppend r b).cap = r.cap := rfl
@[simp] theorem bufAppend_crc (r : Regs) (b : Byte) : (bufAppend r b).crc = r.crc := rfl
@[simp] theorem dropRead_rxBuf (r : Regs) : (dropRead r).rxBuf = [] := rfl
@[simp] theorem dropRead_rxStx (r : Regs) : (dropRead r).rxStx = false := rfl
@[simp] theorem dropRead_rxEsc (r : Regs) : (dropRead r).rxEsc = r.rxEsc := rfl
@[simp] theorem dropRead_cap (r : Regs) : (dropRead r).cap = r.cap := rfl
@[simp] theorem dropRead_crc (r : Regs) : (dropRead r).crc = r.crc := rfl

/-- Concatenation does not depend on how it is bracketed. -/
theorem append_assoc_toNat {a b c d e f : Nat} (x : BitVec a) (y : BitVec b) (z : BitVec c) (u : BitVec d)
    (v : BitVec e) (w : BitVec f) :
    (x ++ y ++ z ++ u ++ v ++ w).toNat = (x ++ (y ++ z ++ u ++ v ++ w)).toNat := by
  simp [BitVec.toNat_append, Nat.shiftLeft_or_distrib, ← Nat.shiftLeft_add, Nat.or_assoc, Nat.add_assoc]

theorem append_assoc_toNat' {a b c d : Nat} (x : BitVec a) (y : BitVec b) (z : BitVec c) (u : BitVec d) :
    (x ++ y ++ z ++ u).toNat = (x ++ (y ++ z ++ u)).toNat := by
  simp [BitVec.toNat_append, Nat.shiftLeft_or_distrib, ← Nat.shiftLeft_add, Nat.or_assoc, Nat.add_assoc]

/-- The result word is the buffer's length above one 32-bit half (rule R179). -/
theorem rxResult_eq (t : RxStep) :
    rxResult t = bufLength t.regs ++
      ((0 : BitVec 26) ++ BitVec.ofBool t.ovrDiag ++ BitVec.ofBool t.stxDiag ++ BitVec.ofBool t.regs.rxEsc ++
        t.outcome.code : BitVec 32) :=
  BitVec.eq_of_toNat_eq (append_assoc_toNat _ _ _ _ _ _)

/-- The status word is the buffer's length above one 32-bit half (rule R183). -/
theorem rxStatusWord_eq (r : Regs) :
    rxStatusWord r = bufLength r ++
      ((0 : BitVec 30) ++ BitVec.ofBool r.rxEsc ++ BitVec.ofBool r.rxStx : BitVec 32) :=
  BitVec.eq_of_toNat_eq (append_assoc_toNat' _ _ _ _)

/-- A bit of the lower part of a concatenation. -/
theorem getLsbD_append_low {n m : Nat} (l : BitVec n) (x : BitVec m) {k : Nat} (h : k < m) :
    (l ++ x).getLsbD k = x.getLsbD k := by
  simp [BitVec.getLsbD_append, h]

/-- A field of the lower part of a concatenation. -/
theorem extractLsb'_append_low {n m : Nat} (l : BitVec n) (x : BitVec m) {k w : Nat} (h : k + w ≤ m) :
    (l ++ x).extractLsb' k w = x.extractLsb' k w := by
  ext i hi
  have : k + i < m := by omega
  simp [BitVec.getLsbD_append, this]

/-- The upper part of a concatenation. -/
theorem extractLsb'_append_high {n m : Nat} (l : BitVec n) (x : BitVec m) :
    (l ++ x).extractLsb' m n = l := by
  ext i hi
  simp [BitVec.getLsbD_append, BitVec.getLsbD_eq_getElem hi]

/-- No escape pending, the buffer within the capacity, an ordinary byte (rule R173). -/
theorem rxStep_data {p : Params} {w : Byte} {r : Regs} (he : r.rxEsc = false) (hl : r.rxBuf.length ≤ r.cap.toNat)
    (hw : w ≠ pSyn) : rxStep p w r = absorbed (bufAppend r w) := by
  simp [rxStep, he, rxUnescaped, overrun, plainByte, hw, Nat.not_lt.mpr hl]

/-- No escape pending, the buffer within the capacity, a SYN (rule R174). -/
theorem rxStep_syn {p : Params} {r : Regs} (he : r.rxEsc = false) (hl : r.rxBuf.length ≤ r.cap.toNat) :
    rxStep p pSyn r = absorbed { r with rxEsc := true } := by
  simp [rxStep, he, rxUnescaped, overrun, plainByte, Nat.not_lt.mpr hl]

/-- No escape pending, the buffer past the capacity (rule R172). -/
theorem rxStep_overrun {p : Params} {w : Byte} {r : Regs} (he : r.rxEsc = false) (hl : r.cap.toNat < r.rxBuf.length) :
    rxStep p w r = { absorbed (plainByte w (dropRead r)) with
      events := [.diag .bufferOverrun r.rxBuf], ovrDiag := true } := by
  simp [rxStep, he, rxUnescaped, overrun, hl]

/-- A resolved STX (rule R175). -/
theorem rxStep_stx {p : Params} {r : Regs} (he : r.rxEsc = true) :
    rxStep p p.pStx r = rxStart p { r with rxEsc := false } := by
  simp [rxStep, he, rxResolved]

/-- A resolved ETX (rule R176). -/
theorem rxStep_etx {p : Params} {r : Regs} (he : r.rxEsc = true) :
    rxStep p p.pEtx r = rxEnd p { r with rxEsc := false } := by
  have h := (Params.facts p).2.2.2.1
  simp [rxStep, he, rxResolved, Ne.symm h]

/-- A resolved CAN (rule R177). -/
theorem rxStep_can {p : Params} {r : Regs} (he : r.rxEsc = true) :
    rxStep p p.pCan r = rxCancel { r with rxEsc := false } := by
  obtain ⟨-, -, -, -, h1, h2, -⟩ := Params.facts p
  simp [rxStep, he, rxResolved, Ne.symm h1, Ne.symm h2]

/-- Any other resolved byte (rule R178). -/
theorem rxStep_other {p : Params} {w : Byte} {r : Regs} (he : r.rxEsc = true) (h1 : w ≠ p.pStx) (h2 : w ≠ p.pEtx)
    (h3 : w ≠ p.pCan) : rxStep p w r = absorbed (bufAppend { r with rxEsc := false } w) := by
  simp [rxStep, he, rxResolved, h1, h2, h3]

/-- Every case of one raw byte, guards included. -/
theorem rxStep_cases (p : Params) (w : Byte) (r : Regs) :
    (r.rxEsc = false ∧ r.rxBuf.length ≤ r.cap.toNat ∧ rxStep p w r = absorbed (plainByte w r)) ∨
    (r.rxEsc = false ∧ r.cap.toNat < r.rxBuf.length ∧
      rxStep p w r = { absorbed (plainByte w (dropRead r)) with
        events := [.diag .bufferOverrun r.rxBuf], ovrDiag := true }) ∨
    (r.rxEsc = true ∧ w = p.pStx ∧ rxStep p w r = rxStart p { r with rxEsc := false }) ∨
    (r.rxEsc = true ∧ w = p.pEtx ∧ rxStep p w r = rxEnd p { r with rxEsc := false }) ∨
    (r.rxEsc = true ∧ w = p.pCan ∧ rxStep p w r = rxCancel { r with rxEsc := false }) ∨
    (r.rxEsc = true ∧ w ≠ p.pStx ∧ w ≠ p.pEtx ∧ w ≠ p.pCan ∧
      rxStep p w r = absorbed (bufAppend { r with rxEsc := false } w)) := by
  cases he : r.rxEsc with
  | false =>
    by_cases hl : r.cap.toNat < r.rxBuf.length
    · exact .inr (.inl ⟨rfl, hl, rxStep_overrun he hl⟩)
    · exact .inl ⟨rfl, Nat.not_lt.mp hl, by simp [rxStep, he, rxUnescaped, overrun, hl]⟩
  | true =>
    by_cases h1 : w = p.pStx
    · subst h1; exact .inr (.inr (.inl ⟨rfl, rfl, rxStep_stx he⟩))
    by_cases h2 : w = p.pEtx
    · subst h2; exact .inr (.inr (.inr (.inl ⟨rfl, rfl, rxStep_etx he⟩)))
    by_cases h3 : w = p.pCan
    · subst h3; exact .inr (.inr (.inr (.inr (.inl ⟨rfl, rfl, rxStep_can he⟩))))
    exact .inr (.inr (.inr (.inr (.inr ⟨rfl, h1, h2, h3, rxStep_other he h1 h2 h3⟩))))

/-- The de-stuffer never writes `CRC` or `CAP` (10_state.md rules R23, R27). -/
theorem rxStep_frame (p : Params) (w : Byte) (r : Regs) :
    (rxStep p w r).regs.crc = r.crc ∧ (rxStep p w r).regs.cap = r.cap := by
  rcases rxStep_cases p w r with ⟨-, -, h⟩ | ⟨-, -, h⟩ | ⟨-, -, h⟩ | ⟨-, -, h⟩ | ⟨-, -, h⟩ | ⟨-, -, -, -, h⟩ <;> rw [h]
  · simp only [absorbed, plainByte]; split <;> simp
  · simp only [absorbed, plainByte]; split <;> simp
  · simp only [absorbed, rxStart]; split <;> simp
  · simp only [absorbed, rxEnd]; split <;> simp
  · simp [absorbed, rxCancel]
  · simp [absorbed]

/-- One raw byte emits at most two records (70_reset_and_hazards.md rule R265). -/
theorem rxStep_events_le (p : Params) (w : Byte) (r : Regs) : (rxStep p w r).events.length ≤ 2 := by
  rcases rxStep_cases p w r with ⟨-, -, h⟩ | ⟨-, -, h⟩ | ⟨-, -, h⟩ | ⟨-, -, h⟩ | ⟨-, -, h⟩ | ⟨-, -, -, -, h⟩ <;> rw [h]
  · simp [absorbed]
  · simp
  · simp only [absorbed, rxStart]; split <;> simp
  · simp only [absorbed, rxEnd]; split <;> simp
  · simp [absorbed, rxCancel]
  · simp [absorbed]

end Sys2Proof.Machine
end

