-- ==== Sys2Proof/Tests/Slice0.lean ====
section
/-! SUPPORT. The model's own tests. Expected values are the spec's: the encodings of spec/30_encoding.md rules R70, R73, R75
written out by hand, and the vectors of spec/95_test_vectors.md (named V-…, R-… as there). The last part gives, for every
statement with hypotheses, a concrete state and operands that meet them. -/

namespace Sys2Proof.Tests

open Sys2Proof Sys2Proof.Machine Sys2Proof.Config Sys2Proof.Claims

/-! Helpers. -/

/-- The state one step after the command `OP A B` is on the port of `s`. -/
def after (op : Byte) (a b : Word) (s : State) : Option State :=
  match step { s with pending := some (commandWord op a b) } with
  | .next t => some t
  | .fault _ => none
  | .refused _ => none

/-- Its response. -/
def answer (op : Byte) (a b : Word) (s : State) : Option Response := (after op a b s).bind (·.response)

/-- A de-stuffer in the middle of a frame. -/
def collecting (esc : Bool) (buf : List Byte) : State :=
  { State.reset with rxStx := true, rxEsc := esc, rxBuf := buf }

/-- An instance with the smallest legal queues. -/
def tiny : Params := ⟨0x02, 0x03, 0x18, 102401, 2, 2, 0, by decide⟩

/-- Its wire queue is full, and `OP A B` is on the port. -/
def fullTx (op : Byte) (a : Word) : State :=
  { State.resetOf tiny with txOut := [0x10, 0x02], pending := some (commandWord op a 0) }

/-- Its event queue is full, an escape is pending, and `RX.BYTE a` is on the port. -/
def fullEv (a : Word) : State :=
  { State.resetOf tiny with
    rxEsc := true, rxBuf := [0x41], evOut := [.cancel, .cancel], pending := some (commandWord 0x30 a 0) }

/-- An instance that has not been reset. -/
def unreset : State := { State.reset with resetDone := false }

/-! WellFormed: an ill-formed term for each check. -/

theorem illformed_none_a : (Instr.crcInit 1 0).wellFormed = false := by decide
theorem illformed_none_b : (Instr.blkParam 0 0x8000000000000000).wellFormed = false := by decide
theorem illformed_i64_b : (Instr.bcdFromdec 0 1).wellFormed = false := by decide
theorem illformed_p48_a : (Instr.bcdFrompacked 0x1000000000000 0).wellFormed = false := by decide
theorem illformed_p48_b : (Instr.bcdFrompacked 0 1).wellFormed = false := by decide
theorem illformed_u8_a : (Instr.rxByte 0x110 0).wellFormed = false := by decide
theorem illformed_u8_b : (Instr.txData 0x10 1).wellFormed = false := by decide
theorem illformed_u32_a : (Instr.rxSetcap 0x100000000 0).wellFormed = false := by decide
theorem illformed_u32_b : (Instr.rxSetcap 4 1).wellFormed = false := by decide
theorem wellformed_i64x2 : (Instr.bcdCmp 0xFFFFFFFFFFFFFFFF 0xFFFFFFFFFFFFFFFF).wellFormed = true := by decide
theorem wellformed_at_the_bounds :
    (Instr.bcdFrompacked 0xFFFFFFFFFFFF 0).wellFormed = true ∧ (Instr.crcByte 0xFF 0).wellFormed = true ∧
      (Instr.rxSetcap 0xFFFFFFFF 0).wellFormed = true := by decide

/-! Decoding: words written as `B`, `A`, `OP` (rule R70) with the `OP` of rule R75. -/

theorem decode_blkNop : decode 0xFEDCBA98765432100123456789ABCDEF00#136 =
    .ok (.blkNop 0x0123456789ABCDEF 0xFEDCBA9876543210) := by rfl
theorem decode_bcdFromdec : decode 0xFFFFFFFFFFFFFFFF01#136 = .ok (.bcdFromdec 0xFFFFFFFFFFFFFFFF 0) := by rfl
theorem decode_bcdFrompacked : decode 0x00007502#136 = .ok (.bcdFrompacked 0x75 0) := by rfl
theorem decode_bcdTopacked : decode 0xFFFFFFE34166E5EC03#136 = .ok (.bcdTopacked 0xFFFFFFE34166E5EC 0) := by rfl
theorem decode_bcdCmp : decode 0x000000000000004BFFFFFFFFFFFFFFFF04#136 = .ok (.bcdCmp 0xFFFFFFFFFFFFFFFF 0x4B) := by rfl
theorem decode_crcInit : decode 0x10#136 = .ok (.crcInit 0 0) := by rfl
theorem decode_crcByte : decode 0x4111#136 = .ok (.crcByte 0x41 0) := by rfl
theorem decode_crcRead : decode 0x1000000000000000012#136 = .ok (.crcRead 0 1) := by rfl
theorem decode_txStart : decode 0x20#136 = .ok (.txStart 0 0) := by rfl
theorem decode_txData : decode 0x1021#136 = .ok (.txData 0x10 0) := by rfl
theorem decode_txEnd : decode 0x22#136 = .ok (.txEnd 0 0) := by rfl
theorem decode_rxByte : decode 0x1830#136 = .ok (.rxByte 0x18 0) := by rfl
theorem decode_rxAbort : decode 0x31#136 = .ok (.rxAbort 0 0) := by rfl
theorem decode_rxSetcap : decode 0x1900032#136 = .ok (.rxSetcap 0x19000 0) := by rfl
theorem decode_rxGetcap : decode 0x33#136 = .ok (.rxGetcap 0 0) := by rfl
theorem decode_rxStatus : decode 0x34#136 = .ok (.rxStatus 0 0) := by rfl
theorem decode_blkParam : decode 0xF0#136 = .ok (.blkParam 0 0) := by rfl
theorem decode_unassigned : decode 0x01FF#136 = .error (.illegalOp 0xFF) := by rfl
theorem decode_table_word : decodeTableWord 8 0x11 = some (.crcByte 0 0) ∧ decodeTableWord 8 0x05 = none := by decide
theorem fetch_word_runs :
    (match step (State.reset.withFetchWord 8 0xF0) with
      | .next t => t.response
      | _ => none) = some ⟨.ok, 0, 0x0001900118030210⟩ := by decide

/-! Reset (spec/70_reset_and_hazards.md rule R260). -/

theorem reset_values : State.reset.toRegs = ⟨0, false, false, [], 102400⟩ ∧ State.reset.txOut = [] ∧
    State.reset.evOut = [] := by decide
/-- 93_implementation_defined.md row 2: a fault, with the state rule R260 gives. -/
theorem reset_of_a_held_command_faults :
    (match step { fullTx 0x20 0 with inputs := [.reset] } with
      | .fault f => some f
      | _ => none) = some (.resetDuringCommand (State.resetOf tiny)) := by decide
/-- 60_exceptions.md rule R230 and 10_state.md rule R29. -/
theorem numeric_codes :
    [Status.ok, .outOfRange, .invalidDigit, .badOperand, .illegalOp].map Status.code = [0, 1, 2, 3, 4] ∧
      Status.ofCode 5 = none ∧ Status.ofCode 15 = none ∧
      [Event.frame [0x02, 0x03], .diag .stxDetected [], .diag .canDetected [], .diag .bufferOverrun [], .cancel].map
        (fun e => (e.kindCode, e.reasonCode)) = [(1, 0), (2, 1), (2, 2), (2, 3), (3, 0)] := by decide
theorem build_refuses_equal_control_bytes : Params.build 0x02 0x02 0x18 102401 2 2 0 = none := by decide
theorem build_refuses_shallow_queues : Params.build 0x02 0x03 0x18 102401 1 2 0 = none := by decide

/-! One step of each command. -/

/-- V-B1, V-B2. -/
theorem test_blkNop : after 0x00 0 0 State.reset = some { State.reset with response := some ⟨.ok, 0, 0⟩ } ∧
    answer 0x00 1 0 State.reset = some ⟨.badOperand, 0, 0⟩ := by decide
/-- V-B3, V-B4. -/
theorem test_blkParam : answer 0xF0 0 0 State.reset = some ⟨.ok, 0, 0x0001900118030210⟩ ∧
    answer 0xF0 0 1 State.reset = some ⟨.badOperand, 0, 0⟩ := by decide
/-- V-B6. -/
theorem test_illegalOp : answer 0xFF 1 1 State.reset = some ⟨.illegalOp, 0, 0⟩ := by decide
/-- V-D6, V-D8. -/
theorem test_bcdFromdec_min : answer 0x01 0xFFFFFF8B95AD7800 0 State.reset = some ⟨.ok, 0, 0xFFFFFF8B95AD7800⟩ ∧
    answer 0x01 0xFFFFFF8B95AD77FF 0 State.reset = some ⟨.outOfRange, 0, 0⟩ := by decide
/-- V-D5, V-D7. -/
theorem test_bcdFromdec_max : answer 0x01 0x746A5287FF 0 State.reset = some ⟨.ok, 0, 0x746A5287FF⟩ ∧
    answer 0x01 0x746A528800 0 State.reset = some ⟨.outOfRange, 0, 0⟩ := by decide
/-- V-P8, V-P3. -/
theorem test_bcdFrompacked : answer 0x02 0x876543210988 0 State.reset = some ⟨.ok, 0, 0xFFFFFFE34166E5EC⟩ ∧
    answer 0x02 0x500000000000 0 State.reset = some ⟨.ok, 0, 0xFFFFFF8B95AD7800⟩ := by decide +kernel
/-- V-P11, V-P16. -/
theorem test_bcdFrompacked_errors : answer 0x02 0x1A 0 State.reset = some ⟨.invalidDigit, 0, 0⟩ ∧
    answer 0x02 0x10000000000AA 0 State.reset = some ⟨.badOperand, 0, 0⟩ := by decide
/-- V-T7, V-T9. -/
theorem test_bcdTopacked : answer 0x03 0xFFFFFFE34166E5EC 0 State.reset = some ⟨.ok, 0, 0x876543210988⟩ ∧
    answer 0x03 0xFFFFFFFFFFFFFFB5 0 State.reset = some ⟨.ok, 0, 0x999999999925⟩ := by decide
/-- V-T12. -/
theorem test_bcdTopacked_range : answer 0x03 0x746A528800 0 State.reset = some ⟨.outOfRange, 0, 0⟩ := by decide
/-- V-K2, V-K6. -/
theorem test_bcdCmp : answer 0x04 0xFFFFFFFFFFFFFFFF 0 State.reset = some ⟨.ok, 0b010, 0xFFFFFFFFFFFFFFFF⟩ ∧
    answer 0x04 0x4B 0x4B State.reset = some ⟨.ok, 0b001, 0⟩ := by decide
/-- V-K7, V-K9. -/
theorem test_bcdCmp_signed : answer 0x04 0xFFFFFFFFFFFFFFFF 0xFFFFFFFFFFFFFFFE State.reset = some ⟨.ok, 0b100, 1⟩ ∧
    answer 0x04 0 0xFFFFFF8B95AD77FF State.reset = some ⟨.outOfRange, 0, 0⟩ := by decide
/-- V-C9, V-C11. -/
theorem test_crcByte : answer 0x11 0x56 0 { State.reset with crc := 0x1234 } = some ⟨.ok, 0, 0x3C40⟩ ∧
    answer 0x11 0xFF 0 { State.reset with crc := 0xFFFF } = some ⟨.ok, 0, 0xFF00⟩ := by decide
/-- V-C23. -/
theorem test_crcByte_reserved : (after 0x11 0x100 0 { State.reset with crc := 0x1234 }).map (·.crc) = some 0x1234 ∧
    answer 0x11 0x100 0 State.reset = some ⟨.badOperand, 0, 0⟩ := by decide
/-- V-C21. -/
theorem test_crcInit : after 0x10 0 0 { State.reset with crc := 0x1021 } =
    some { State.reset with response := some ⟨.ok, 0, 0⟩ } := by decide
/-- V-C22. -/
theorem test_crcRead : answer 0x12 0 0 { State.reset with crc := 0x1021 } = some ⟨.ok, 0, 0x1021⟩ := by decide
/-- V-C18, the span of "123456789". -/
theorem test_checksum16 : checksum16 [0x31, 0x32, 0x33, 0x34, 0x35, 0x36, 0x37, 0x38, 0x39] = 0x31C3 := by decide
/-- V-X1. -/
theorem test_txStart : after 0x20 0 0 State.reset =
    some { State.reset with txOut := [0x10, 0x02], response := some ⟨.ok, 0, 2⟩ } := by decide
/-- V-X2, V-X3. -/
theorem test_txData : (after 0x21 0x10 0 State.reset).map (·.txOut) = some [0x10, 0x10] ∧
    (after 0x21 0x03 0 State.reset).map (·.txOut) = some [0x03] := by decide
/-- V-X6. -/
theorem test_txEnd : after 0x22 0 0 State.reset =
    some { State.reset with txOut := [0x10, 0x03], response := some ⟨.ok, 0, 2⟩ } := by decide
/-- 70_reset_and_hazards.md rule R265: the command holds, and completes once the host has consumed. -/
theorem test_tx_holds : step (fullTx 0x20 0) = .next (fullTx 0x20 0) ∧
    (after 0x20 0 0 { fullTx 0x20 0 with txTaken := 2 }).map (·.txOut) = some [0x10, 0x02, 0x10, 0x02] := by
  exact ⟨rfl, by decide⟩
/-- V-X13. -/
theorem test_wire : wire Params.default [0x02, 0x10, 0x02, 0x03, 0x10, 0x10, 0x03] =
    [0x10, 0x02, 0x10, 0x10, 0x02, 0x03, 0x10, 0x10, 0x10, 0x10, 0x10, 0x03] := by decide
/-- R-7, its last byte: the frame is delivered. -/
theorem test_rxByte_frame : after 0x30 0x03 0 (collecting true [0x02, 0x42]) =
    some { State.reset with evOut := [.frame [0x02, 0x42, 0x03]], response := some ⟨.ok, 0, 0x1⟩ } := by decide
/-- R-16: the guard fires on the SYN. -/
theorem test_rxByte_overrun : after 0x30 0x10 0 { collecting false [0x02, 0x41, 0x42] with cap := 2 } =
    some { State.reset with
      cap := 2, rxEsc := true, evOut := [.diag .bufferOverrun [0x02, 0x41, 0x42]],
      response := some ⟨.ok, 0, 0x28⟩ } := by decide
/-- R-18. -/
theorem test_rxAbort : after 0x31 0 0 (collecting true [0x02, 0x41]) =
    some { State.reset with response := some ⟨.ok, 0, 0⟩ } := by decide
/-- R-20, R-21. -/
theorem test_rxSetcap : (after 0x32 0 0 State.reset).map (·.cap) = some 0 ∧
    (after 0x32 0x19001 0 State.reset).map (fun t => (t.cap, t.response)) = some (0x19000, some ⟨.badOperand, 0, 0⟩) := by
  decide
/-- R-19. -/
theorem test_rxGetcap : answer 0x33 0 0 State.reset = some ⟨.ok, 0, 0x19000⟩ := by decide
/-- R-18. -/
theorem test_rxStatus : answer 0x34 0 0 (collecting true [0x02, 0x41]) = some ⟨.ok, 0, 0x200000003⟩ := by decide

/-! Assembler and listing form (spec/30_encoding.md rules R77 to R81). -/

theorem asm_cmp : assembleLine Params.default ['b', 'c', 'd', '.', 'C', 'M', 'P', ' ', '-', '1', ',', ' ', '7', '5', ';'] =
    .ok [.bcdCmp 0xFFFFFFFFFFFFFFFF 0x4B] := by rfl
theorem asm_span : assembleNamed Params.default "CRC.SPAN".toList [0x31] = .ok [.crcInit 0 0, .crcByte 0x31 0, .crcRead 0 0] := by rfl
/-- V-X14. -/
theorem asm_refuses_no_frame : assembleNamed Params.default "TX.FRAME".toList [0x03, 0x02] = .error .notAFrame := by rfl
/-- Rule R81 with no bytes (log entry 11), rule R79 with none (V-C13). -/
theorem asm_no_bytes : assembleNamed Params.default "RX.FEED".toList [] = .ok [] ∧
    assembleNamed Params.default "CRC.SPAN".toList [] = .ok [.crcInit 0 0, .crcRead 0 0] := ⟨rfl, rfl⟩
theorem listing_crcByte : readListing ['1', '1', ' ', '4', '1', ' ', '0'] = some 0x4111#136 ∧
    writeListing 0x4111#136 = ['1', '1', ' ', '4', '1', ' ', '0'] := by decide

/-! Witnesses: for each statement with hypotheses, a concrete state and operands that meet all of them together. -/

/-- A state with the word of a command on its port. -/
def onPort (w : CommandWord) (s : State) : State := { s with pending := some w }

/-- One step answers a next state (`Outcome` has no decidable equality of its own). -/
def stepsTo (s t : State) : Bool :=
  match step s with
  | .next u => decide (u = t)
  | .fault _ => false
  | .refused _ => false

/-- `exec` answers the next state `t`. -/
def execsTo (i : Instr) (s t : State) : Bool :=
  match exec i s with
  | .next u => decide (u = t)
  | .fault _ => false
  | .refused _ => false

/-- Every next state of a word on the port, its response included, for a command that completes. -/
def runsTo (w : CommandWord) (s t : State) : Bool :=
  match runCommand w s with
  | .next u => decide (u = t)
  | .fault _ => false
  | .refused _ => false

theorem witness_EncodingADecodedWordGivesItBack : decode 0x1021#136 = .ok (.txData 0x10 0) := by rfl

theorem witness_DecodingLooksAtOpAlone :
    Opcode.blkParam.code = 0xF0 ∧ Opcode.blkNop.code = 0x00 ∧
      (∀ op ∈ [0x05#8, 0x0F, 0x13, 0x1F, 0x23, 0x2F, 0x35, 0xEF, 0xF1, 0xFF], ∀ o ∈ allOpcodes, o.code ≠ op) ∧
      decodeTableWord 136 0x4BFFFFFFFFFFFFFFFF04 = some (.bcdCmp 0xFFFFFFFFFFFFFFFF 0x4B) := by decide
theorem witness_DecodingLooksAtOpAlone_unassigned : ∀ o : Opcode, o.code ≠ 0xF1 := by
  intro o
  cases o <;> decide

theorem witness_UnassignedOpcodesAnswerIllegalOp :
    ∀ op ∈ [0x05#8, 0x0F, 0x13, 0x1F, 0x23, 0x2F, 0x35, 0xEF, 0xF1, 0xFF],
      (onPort (commandWord op 1 1) State.reset).resetDone = true ∧
      (onPort (commandWord op 1 1) State.reset).pending = some (commandWord op 1 1) ∧
      ((0x05 ≤ op.toNat ∧ op.toNat ≤ 0x0F) ∨ (0x13 ≤ op.toNat ∧ op.toNat ≤ 0x1F) ∨
        (0x23 ≤ op.toNat ∧ op.toNat ≤ 0x2F) ∨ (0x35 ≤ op.toNat ∧ op.toNat ≤ 0xEF) ∨
        (0xF1 ≤ op.toNat ∧ op.toNat ≤ 0xFF)) := by decide

/-- One command completes, one holds, with no action of the host's and with reset. -/
theorem witness_StepRunsTheDecodedCommand :
    (onPort 0x10#136 State.reset).resetDone = true ∧ (onPort 0x10#136 State.reset).pending = some 0x10#136 ∧
      decodeTableWord 136 0x10 = some (.crcInit 0 0) ∧
      (fullTx 0x20 0).resetDone = true ∧ (fullTx 0x20 0).pending = some 0x20#136 ∧
      decodeTableWord 136 0x20 = some (.txStart 0 0) ∧ (fullTx 0x20 0).inputs = [] ∧
      ({ fullTx 0x20 0 with inputs := [.reset] } : State).inputs = .reset :: [] := by decide

theorem witness_CommandIsAcceptedBetweenCommands :
    State.reset.resetDone = true ∧ State.reset.pending = none ∧ State.reset.inputs = [] ∧
      ({ State.reset with inputs := [.command 0x10#136] } : State).inputs = .command 0x10#136 :: [] := by decide

/-- Consuming all there is, and asking for more than there is. -/
theorem witness_HostConsumesFromTheFront :
    ∀ n ∈ [0, 2, 3],
      let s : State := { State.reset with txOut := [0x10, 0x02], evOut := [.cancel], inputs := [.consumeTx n] }
      let t : State := { s with inputs := [.consumeEv n] }
      s.resetDone = true ∧ s.pending = none ∧ s.inputs = .consumeTx n :: [] ∧ s.txTaken ≤ s.txOut.length ∧
        t.inputs = .consumeEv n :: [] ∧ t.evTaken ≤ t.evOut.length := by decide
/-- While a command holds. -/
theorem witness_HostConsumesFromTheFront_held :
    let s : State := { fullTx 0x20 0 with inputs := [.consumeTx 1] }
    let t : State := { fullEv 0x18 with inputs := [.consumeEv 3] }
    (holding s ∧ s.txTaken ≤ s.txOut.length) ∧ holding t ∧ t.evTaken ≤ t.evOut.length :=
  ⟨⟨⟨_, rfl, rfl⟩, by decide⟩, ⟨_, rfl, rfl⟩, by decide⟩

/-- Between commands, before the first reset, and while a command holds. -/
theorem witness_ResetSetsEveryPieceOfState :
    ({ State.reset with inputs := [.reset] } : State).pending = none ∧
      ({ unreset with inputs := [.reset] } : State).resetDone = false ∧
      ({ fullTx 0x20 0 with inputs := [.reset] } : State).resetDone = true ∧
      holding { fullTx 0x20 0 with inputs := [.reset] } :=
  ⟨by decide, by decide, by decide, _, rfl, rfl⟩

theorem witness_CommandBeforeTheFirstResetIsRefused :
    unreset.resetDone = false ∧ (onPort 0x00#136 unreset).pending = some 0x00#136 ∧
      (onPort 0x00#136 unreset).inputs = [] ∧
      ({ unreset with inputs := [.command 0x00#136] } : State).inputs = .command 0x00#136 :: [] := by decide

/-- A command that completes, and reset that meets a held command. -/
theorem witness_EveryStepAfterResetAnswersANextState :
    (onPort 0xFF#136 State.reset).resetDone = true ∧
      ({ fullTx 0x20 0 with inputs := [.reset] } : State).resetDone = true := by decide

/-- In the middle of a frame, with an escape pending and a record already emitted. -/
theorem witness_EveryStepKeepsTheInvariant :
    let s : State := onPort 0x0330#136 { collecting true [0x02, 0x41] with evOut := [.frame [0x02, 0x03]] }
    s.Inv ∧ ∃ t, step s = .next t := by
  refine ⟨⟨?_, ?_, ?_, ?_, ?_, ?_, ?_, ?_, ?_⟩, _, rfl⟩
  · decide
  · decide
  · decide
  · decide
  · decide
  · decide
  · decide
  · decide
  · intro e he
    obtain rfl := List.mem_singleton.mp he
    exact ⟨rfl, rfl, by decide⟩

theorem witness_ReservedBitsAnswerBadOperand :
    (Instr.blkNop 1 0).wellFormed = false ∧ (Instr.bcdFromdec 0 1).wellFormed = false ∧
      (Instr.bcdFrompacked 0x1000000000000 0).wellFormed = false ∧ (Instr.rxSetcap 0x100000000 0).wellFormed = false ∧
      (Instr.txData 0x100 0).wellFormed = false := by decide

/-- `BCD.TOPACKED` of `BCD_MAX + 1`. -/
theorem witness_FailingCommandsChangeNothing :
    let w := commandWord 0x03 0x746A528800 0
    let t := answered State.reset ⟨.outOfRange, 0, 0⟩
    (onPort w State.reset).pending = some w ∧ runsTo w (onPort w State.reset) t = true ∧ t.pending = none ∧
      t.response = some ⟨.outOfRange, 0, 0⟩ ∧ Status.outOfRange ≠ .ok := by decide

/-- A well-formed command of each failing kind. -/
theorem witness_StatusesComeFromTheirCommandsOnly :
    ∀ x ∈ [(Instr.rxSetcap 102401 0, Status.badOperand), (Instr.bcdFromdec 500000000000 0, Status.outOfRange),
        (Instr.bcdTopacked 500000000000 0, Status.outOfRange), (Instr.bcdCmp 0 500000000000, Status.outOfRange),
        (Instr.bcdFrompacked 0x1A 0, Status.invalidDigit)],
      let s := onPort (encode x.1) State.reset
      let t := answered s ⟨x.2, 0, 0⟩
      s.pending ≠ none ∧ x.1.wellFormed = true ∧ execsTo x.1 s t = true ∧ t.pending = none ∧
        t.response = some ⟨x.2, 0, 0⟩ := by decide

/-- A command that is none of the named writers, and each writer. -/
theorem witness_EachRegisterIsWrittenByItsCommandsOnly :
    (∃ t, exec (.rxStatus 0 0) (collecting true [0x02]) = .next t) ∧ (∃ t, exec (.crcInit 0 0) State.reset = .next t) ∧
      (∃ t, exec (.rxSetcap 4 0) State.reset = .next t) ∧ (∃ t, exec (.rxByte 0x41 0) State.reset = .next t) ∧
      (∃ t, exec (.txEnd 0 0) State.reset = .next t) ∧
      Opcode.rxStatus ≠ .crcInit ∧ Opcode.rxStatus ≠ .crcByte ∧ Opcode.rxStatus ≠ .rxSetcap ∧
      Opcode.rxStatus ≠ .rxByte ∧ Opcode.rxStatus ≠ .rxAbort ∧ Opcode.rxStatus ≠ .txStart ∧
      Opcode.rxStatus ≠ .txData ∧ Opcode.rxStatus ≠ .txEnd :=
  ⟨⟨_, rfl⟩, ⟨_, rfl⟩, ⟨_, rfl⟩, ⟨_, rfl⟩, ⟨_, rfl⟩, by decide⟩

theorem witness_OnlyCrcCommandsReadTheCrcRegister :
    (Instr.rxByte 0x18 0).opcode ≠ .crcByte ∧ (Instr.rxByte 0x18 0).opcode ≠ .crcRead ∧
      (Instr.rxByte 0x18 0).opcode ≠ .crcInit ∧ ∃ t, exec (.rxByte 0x18 0) (collecting true [0x02]) = .next t :=
  ⟨by decide, by decide, by decide, _, rfl⟩

theorem witness_BcdAndStufferReadNoRegister :
    (Instr.txData 0x10 0).opcode ∈ [Opcode.bcdFromdec, .bcdFrompacked, .bcdTopacked, .bcdCmp, .txStart, .txData, .txEnd] ∧
      ∃ t, exec (.txData 0x10 0) (collecting true [0x02]) = .next t :=
  ⟨by decide, _, rfl⟩

theorem witness_NoCommandReadsAnEarlierResponse :
    let s := { onPort (encode (.crcRead 0 0)) State.reset with response := some ⟨.ok, 0, 7⟩ }
    let t := answered State.reset ⟨.ok, 0, 0⟩
    s.pending ≠ none ∧ execsTo (.crcRead 0 0) s t = true ∧ t.pending = none := by decide

/-- A step that appends and a step that resets. -/
theorem witness_OutputStreamsAreAppendOnly :
    (∃ t, step (onPort 0x20#136 State.reset) = .next t) ∧
      ∃ t, step { State.reset with txOut := [0x10], inputs := [.reset] } = .next t :=
  ⟨⟨_, rfl⟩, ⟨_, rfl⟩⟩

/-- Each of the four holding commands, the queue one entry short. -/
theorem witness_CommandsHoldWhileTheirOutputDoesNotFit :
    (∀ s ∈ [fullTx 0x20 0, { fullTx 0x20 0 with txTaken := 1 }, fullTx 0x22 0, fullTx 0x21 0x10],
      s.resetDone = true ∧ s.txFree < 2) ∧
    (fullTx 0x20 0).pending = some (encode (.txStart 0 0)) ∧ (fullTx 0x22 0).pending = some (encode (.txEnd 0 0)) ∧
    (fullTx 0x21 0x10).pending = some (encode (.txData ((0x10 : Byte).setWidth 64) 0)) ∧
    (fullTx 0x21 0x41).pending = some (encode (.txData ((0x41 : Byte).setWidth 64) 0)) ∧ (fullTx 0x21 0x41).txFree < 1 ∧
    (∀ c ∈ [0x02#8, 0x18],
      (fullEv (c.setWidth 64)).pending = some (encode (.rxByte (c.setWidth 64) 0)) ∧
      (fullEv (c.setWidth 64)).evFree < (rxStep tiny c (fullEv (c.setWidth 64)).toRegs).events.length) ∧
    ({ fullEv 0x18 with evTaken := 1 } : State).evFree < (rxStep tiny 0x18 (fullEv 0x18).toRegs).events.length := by
  decide

theorem witness_EveryCommandCompletesFromEmptyQueues :
    ∀ s ∈ [State.reset, { fullTx 0x20 0 with txTaken := 2 }], s.txTaken = s.txOut.length ∧ s.evTaken = s.evOut.length := by
  decide

theorem witness_IdempotentCommandsChangeNothingFurther :
    Opcode.rxStatus ∈ [Opcode.bcdFromdec, .bcdFrompacked, .bcdTopacked, .bcdCmp, .crcRead, .rxGetcap, .rxStatus, .blkNop,
        .blkParam] ∧ Opcode.rxSetcap ∈ [Opcode.crcInit, .rxAbort, .rxSetcap] := by decide

theorem witness_BlockCommandsAnswer : (0 : Word) ≠ 0 ∨ (1 : Word) ≠ 0 := by decide
theorem witness_CrcInitAndReadAnswer : (1 : Word) ≠ 0 ∨ (0 : Word) ≠ 0 := by decide
theorem witness_AbortDropsTheReadSilently : (1 : Word) ≠ 0 ∨ (0 : Word) ≠ 0 := by decide
theorem witness_GetcapAndStatusReadTheDestuffer : (1 : Word) ≠ 0 ∨ (0 : Word) ≠ 0 := by decide

/-- `BCD_MAX`, `BCD_MAX + 1`, `BCD_MIN`, `BCD_MIN - 1`, and a set reserved bit. -/
theorem witness_FromdecValidatesTheRange :
    (0x746A5287FF#64).toInt ≤ 499999999999 ∧ -500000000000 ≤ (0x746A5287FF#64).toInt ∧
      (0xFFFFFF8B95AD7800#64).toInt ≤ 499999999999 ∧ -500000000000 ≤ (0xFFFFFF8B95AD7800#64).toInt ∧
      499999999999 < (0x746A528800#64).toInt ∧ (0xFFFFFF8B95AD77FF#64).toInt < -500000000000 ∧ (1 : Word) ≠ 0 := by
  decide

/-- The largest field and the first that is too large; all digits 9, and one nibble above 9 at either end. -/
theorem witness_FrompackedReadsTheTwelveDigits :
    (0xFFFFFFFFFFFF#64).toNat < 2 ^ 48 ∧ 2 ^ 48 ≤ (0x1000000000000#64).toNat ∧
      (∀ j < 12, nibble (0x999999999999#64).toNat j ≤ 9) ∧ (∃ j < 12, 9 < nibble (0x00000000001A#64).toNat j) ∧
      (∃ j < 12, 9 < nibble (0xA00000000000#64).toNat j) := by decide

theorem witness_TopackedWritesTheTwelveDigits :
    (0x746A5287FF#64).toInt ≤ 499999999999 ∧ -500000000000 ≤ (0x746A5287FF#64).toInt ∧
      (0xFFFFFF8B95AD7800#64).toInt ≤ 499999999999 ∧ -500000000000 ≤ (0xFFFFFF8B95AD7800#64).toInt ∧
      499999999999 < (0x746A528800#64).toInt ∧ (0xFFFFFF8B95AD77FF#64).toInt < -500000000000 ∧ (1 : Word) ≠ 0 := by
  decide

/-- Each of the four ways to be out of range, and each of the three orders. -/
theorem witness_CmpOrdersBySignedValue :
    (0xFFFFFF8B95AD77FF#64).toInt < -500000000000 ∧ 499999999999 < (0x746A528800#64).toInt ∧
      (-500000000000 ≤ (0xFFFFFF8B95AD7800#64).toInt ∧ (0xFFFFFF8B95AD7800#64).toInt ≤ 499999999999) ∧
      (-500000000000 ≤ (0x746A5287FF#64).toInt ∧ (0x746A5287FF#64).toInt ≤ 499999999999) ∧
      (0xFFFFFF8B95AD7800#64).toInt < (0x746A5287FF#64).toInt := by decide

theorem witness_PackedRoundTripReturnsTheValue :
    ∀ v ∈ [(-500000000000 : Int), -1, 0, 499999999999], -500000000000 ≤ v ∧ v ≤ 499999999999 := by decide

/-- A valid form, and an invalid byte in the first and in the last place. -/
theorem witness_ValidPackedFormsRoundTrip :
    (∀ j < 12, nibble (0x876543210988#48).toNat j ≤ 9) ∧
      (∃ k < 6, 0x99 < (0x9A0000000000#48).toNat / 256 ^ k % 256) ∧
      (∃ k < 6, 0x99 < (0x0000000000FF#48).toNat / 256 ^ k % 256) := by decide

/-- The largest positive, the smallest negative, and all nines. -/
theorem witness_MostSignificantDigitIsTheSign :
    (∀ j < 12, nibble (0x499999999999#48).toNat j ≤ 9) ∧ (∀ j < 12, nibble (0x500000000000#48).toNat j ≤ 9) ∧
      (∀ j < 12, nibble (0x999999999999#48).toNat j ≤ 9) := by decide

theorem witness_CrcByteStepsTheRegister :
    256 ≤ (0x100#64).toNat ∧ ¬ 256 ≤ (0xFF#64).toNat ∧ (1 : Word) ≠ 0 := by decide

theorem witness_ChecksumIsAffineAndLastTwoBytesDecideIt : [0x01#8, 0xFF].length = [0x10#8, 0x00].length := by decide

/-- Room for exactly two bytes. -/
theorem witness_TxStartAndEndEmitTheEscapedSentinels :
    2 ≤ (State.resetOf tiny).txFree ∧ ¬ 3 ≤ (State.resetOf tiny).txFree ∧ ((1 : Word) ≠ 0 ∨ (0 : Word) ≠ 0) := by decide

/-- Room for exactly two bytes and for exactly one; STX, ETX and CAN values among the data. -/
theorem witness_TxDataDoublesSynAlone :
    2 ≤ (State.resetOf tiny).txFree ∧
      (1 ≤ ({ State.resetOf tiny with txOut := [0x41] } : State).txFree ∧
        ¬ 2 ≤ ({ State.resetOf tiny with txOut := [0x41] } : State).txFree) ∧
      (∀ d ∈ [0x02#8, 0x03, 0x18, 0x0F, 0x11], d ≠ 0x10) ∧ 256 ≤ (0x100#64).toNat := by decide

/-- The shortest frame in a queue of four bytes, and a frame with a SYN inside. -/
theorem witness_TxFrameAppendsTheWireForm :
    (wire Params.default [0x02, 0x03]).length = 4 ∧ (wire Params.default [0x02, 0x10, 0x03]).length = 6 ∧
      6 ≤ State.reset.txFree := by decide

/-- The buffer empty and exactly as long as `CAP`. -/
theorem witness_UnescapedByteIsDataAndSynIsRemembered :
    State.reset.rxEsc = false ∧ State.reset.rxBuf.length ≤ State.reset.cap.toNat ∧
      (let s := { collecting false [0x02, 0x41] with cap := 2 }
       s.rxEsc = false ∧ s.rxBuf.length ≤ s.cap.toNat) ∧ (0x02 : Byte) ≠ 0x10 := by decide

/-- The buffer one byte longer than `CAP`, room for exactly one record. -/
theorem witness_OverrunGuardDropsTheBufferNotTheByte :
    let s := { State.resetOf tiny with rxStx := true, rxBuf := [0x02, 0x41, 0x42], cap := 2, evOut := [.cancel] }
    s.rxEsc = false ∧ s.cap.toNat < s.rxBuf.length ∧ 1 ≤ s.evFree ∧ ¬ 2 ≤ s.evFree := by decide

theorem witness_ResolvedStxStartsAFrame :
    (collecting true []).rxEsc = true ∧ (collecting true []).rxBuf = [] ∧ (collecting true [0x41]).rxEsc = true ∧
      (collecting true [0x41]).rxBuf ≠ [] ∧ 1 ≤ (collecting true [0x41]).evFree := by decide

/-- In each phase. -/
theorem witness_ResolvedEtxCompletesOrIsData :
    (collecting true [0x02]).rxEsc = true ∧ (collecting true [0x02]).rxStx = true ∧ 1 ≤ (collecting true [0x02]).evFree ∧
      ({ State.reset with rxEsc := true } : State).rxEsc = true ∧
      ({ State.reset with rxEsc := true } : State).rxStx = false := by decide

/-- Room for exactly two records. -/
theorem witness_ResolvedCanCancelsTheRead :
    let s := { State.resetOf tiny with rxEsc := true }
    s.rxEsc = true ∧ 2 ≤ s.evFree ∧ ¬ 3 ≤ s.evFree := by decide

/-- A resolved SYN and a resolved 41. -/
theorem witness_ResolvedOtherByteIsAppended :
    (collecting true [0x02]).rxEsc = true ∧ ∀ c ∈ [0x10#8, 0x41], c ≠ (collecting true [0x02]).params.pStx ∧
      c ≠ (collecting true [0x02]).params.pEtx ∧ c ≠ (collecting true [0x02]).params.pCan := by decide

theorem witness_RxByteResultReportsTheRecords : 2 ≤ State.reset.evFree ∧ 2 ≤ (State.resetOf tiny).evFree := by decide

theorem witness_OneRxByteEmitsOneKindOfOutcome :
    ∃ t, exec (.rxByte 0x18 0) (collecting true [0x02]) = .next t := ⟨_, rfl⟩

/-- A read that ends with a frame and one that ends with a cancellation. -/
theorem witness_EndedReadLeavesNothingBehind :
    (∃ t, exec (.rxByte 0x03 0) (collecting true [0x02]) = .next t ∧
      t.evOut = (collecting true [0x02]).evOut ++ [.frame [0x02, 0x03]] ∧
      ∃ d, Event.frame d ∈ [Event.frame [0x02, 0x03]]) ∧
    ∃ t, exec (.rxByte 0x18 0) (collecting true [0x02]) = .next t ∧
      t.evOut = (collecting true [0x02]).evOut ++ [.diag .canDetected [0x02], .cancel] ∧
      Event.cancel ∈ [Event.diag .canDetected [0x02], Event.cancel] :=
  ⟨⟨_, rfl, rfl, _, List.mem_singleton.mpr rfl⟩, ⟨_, rfl, rfl, by decide⟩⟩

/-- `RX_BUF_BYTES - 1`, `RX_BUF_BYTES`, and a reserved bit. -/
theorem witness_SetcapTakesLegalCapacitiesOnly :
    (102400#64).toNat ≤ State.reset.params.rxBufBytes - 1 ∧ State.reset.params.rxBufBytes - 1 < (102401#64).toNat ∧
      (0#64).toNat ≤ State.reset.params.rxBufBytes - 1 ∧ (1 : Word) ≠ 0 := by decide

/-- The shortest frame at the smallest capacity that takes it, with an old buffer that overruns, with one that does not,
and with none. -/
theorem witness_StuffedFrameIsDeliveredExactly :
    ∀ s ∈ [({ State.resetOf tiny with cap := 1 } : State), { State.resetOf tiny with cap := 1, rxBuf := [0x41] },
        { State.resetOf tiny with cap := 1, rxBuf := [0x41, 0x42] }],
      s.rxEsc = false ∧ ([s.params.pStx] ++ [] ++ [s.params.pEtx]).length - 1 ≤ s.cap.toNat ∧ 2 ≤ s.evFree := by decide

/-- A frame exactly as long as the capacity allows, and one a byte longer. -/
theorem witness_FrameIsDeliveredExactlyWhenItFits :
    ∀ inner ∈ [[0x41#8, 0x42, 0x43], [0x41, 0x42, 0x43, 0x44]],
      let s : State := { State.reset with cap := 4 }
      s.rxEsc = false ∧ s.rxStx = false ∧ s.rxBuf = [] ∧
        ([s.params.pStx] ++ inner ++ [s.params.pEtx]).length ≤ s.evFree := by decide
theorem witness_FrameIsDeliveredExactlyWhenItFits_reset : State.reset.cap.toNat = 102400 := by decide

/-- Each class, at the bounds of its range and past them. -/
theorem witness_AssemblerRefusesLiteralsOutOfRange :
    operandClass .rxStatus = .noOperand ∧ operandClass .bcdCmp = .i64x2 ∧
      (∀ o ∈ [Opcode.bcdTopacked, .bcdFrompacked, .txData, .rxByte, .rxSetcap],
        operandClass o ∈ [OperandClass.i64, .p48, .u8, .u32]) ∧
      (literalFits .i64 (-2 ^ 63) ∧ literalFits .i64 (2 ^ 64 - 1) ∧ ¬ literalFits .i64 (2 ^ 64)) ∧
      (literalFits .i64x2 (-2 ^ 63) ∧ ¬ literalFits .i64x2 (-2 ^ 63 - 1)) ∧
      (literalFits .p48 (2 ^ 48 - 1) ∧ ¬ literalFits .p48 (2 ^ 48) ∧ ¬ literalFits .p48 (-1)) ∧
      (literalFits .u8 255 ∧ ¬ literalFits .u8 256) ∧ literalFits .u32 (2 ^ 32 - 1) ∧ ¬ literalFits .u32 (2 ^ 32) := by
  simp only [literalFits]
  decide

/-- A command of each arity. -/
theorem witness_AssembledCommandsAreWellFormed :
    assembleCommand .crcInit [] = .ok (.crcInit 0 0) ∧ assembleCommand .crcByte [0xFF] = .ok (.crcByte 0xFF 0) ∧
      assembleCommand .bcdCmp [-1, 75] = .ok (.bcdCmp 0xFFFFFFFFFFFFFFFF 0x4B) :=
  ⟨rfl, rfl, rfl⟩

end Sys2Proof.Tests
end

section
/-! PROOFS. The shape of the wire form (42_framer_tx.md rules R154 and R156): the SYN pairs read from the left. -/

namespace Sys2Proof.Machine

open Sys2Proof.Config Sys2Proof.Claims

@[simp] theorem escapeByte_syn : escapeByte pSyn = [pSyn, pSyn] := if_pos rfl

theorem escapeByte_of_ne {b : Byte} (h : b ≠ pSyn) : escapeByte b = [b] := if_neg h

theorem innerBytes_framed (first last : Byte) (inner : List Byte) :
    innerBytes ([first] ++ inner ++ [last]) = inner := by simp [innerBytes]

theorem wire_framed (p : Params) (inner : List Byte) :
    wire p ([p.pStx] ++ inner ++ [p.pEtx]) = pSyn :: p.pStx :: (inner.flatMap escapeByte ++ [pSyn, p.pEtx]) := by
  rw [wire, innerBytes_framed]; rfl

@[simp] theorem synPairs_nil : synPairs [] = some [] := by rw [synPairs]

/-- A SYN takes the byte after it, whatever that byte is. -/
@[simp] theorem synPairs_pair (x : Byte) (ws : List Byte) :
    synPairs (pSyn :: x :: ws) = (synPairs ws).map (x :: ·) := by
  rw [synPairs]; exact if_pos rfl

theorem synPairs_skip {w : Byte} (h : w ≠ pSyn) (ws : List Byte) : synPairs (w :: ws) = synPairs ws := by
  cases ws with
  | nil => rw [synPairs_nil, synPairs]; exact if_neg h
  | cons x xs => rw [synPairs]; exact if_neg h

/-- Escaped bytes leave no pair open: in front of any wire they add one SYN SYN for each SYN among them. -/
theorem synPairs_escaped_append (inner rest : List Byte) :
    synPairs (inner.flatMap escapeByte ++ rest) =
      (synPairs rest).map (List.replicate (inner.count pSyn) pSyn ++ ·) := by
  induction inner with
  | nil => simp
  | cons b bs ih =>
    by_cases h : b = pSyn
    · subst h
      simp [ih, List.replicate_succ, Function.comp_def]
    · simp [escapeByte_of_ne h, synPairs_skip h, ih, h]

theorem synPairs_wire (p : Params) (inner : List Byte) :
    synPairs (wire p ([p.pStx] ++ inner ++ [p.pEtx])) =
      some ([p.pStx] ++ List.replicate (inner.count pSyn) pSyn ++ [p.pEtx]) := by
  rw [wire_framed, synPairs_pair, synPairs_escaped_append]
  simp

/-- Settles O43: `synPairs_wire` names the pairs, and `P_CAN` differs from each of the three second bytes (rule R5). -/
theorem wireFormHasNoOtherSynPairs : Obligations.WireFormHasNoOtherSynPairs := by
  intro p inner
  refine ⟨_, synPairs_wire p inner, rfl, ?_⟩
  obtain ⟨-, -, hCanSyn, -, hStxCan, hEtxCan, -⟩ := Params.facts p
  simp [List.mem_replicate, hStxCan.symm, hEtxCan.symm, hCanSyn]

end Sys2Proof.Machine
end

section
/-! PROOFS. What each command's effect writes (10_state.md rules R23 to R30), and that an effect does not depend on what its
command does not read. -/

namespace Sys2Proof.Machine

open Sys2Proof.Config

/-- What an effect `e` of a command of row `o` in state `s` may write: one case for each writer (rules R23 to R29). -/
inductive Writes (s : State) (o : Opcode) (e : Effect) : Prop where
  | nothing (hr : e.regs = s.toRegs) (ht : e.tx = []) (he : e.ev = [])
  | crc (ho : o = .crcInit ∨ o = .crcByte) (c : CrcWord) (hr : e.regs = { s.toRegs with crc := c }) (ht : e.tx = [])
      (he : e.ev = [])
  | wire (ho : o = .txStart ∨ o = .txData ∨ o = .txEnd) (hr : e.regs = s.toRegs) (he : e.ev = [])
  | rxByte (ho : o = .rxByte) (w : Byte) (hr : e.regs = (rxStep s.params w s.toRegs).regs) (ht : e.tx = [])
      (he : e.ev = (rxStep s.params w s.toRegs).events)
  | rxAbort (ho : o = .rxAbort) (hr : e.regs = { s.toRegs with rxBuf := [], rxStx := false, rxEsc := false })
      (ht : e.tx = []) (he : e.ev = [])
  | cap (ho : o = .rxSetcap) (c : BitVec 32) (hc : c.toNat ≤ s.params.rxBufBytes - 1)
      (hr : e.regs = { s.toRegs with cap := c }) (ht : e.tx = []) (he : e.ev = [])

theorem Writes.failWith (s : State) (o : Opcode) (st : Status) : Writes s o (failWith s st) := .nothing rfl rfl rfl

theorem Writes.respondOk (s : State) (o : Opcode) (r : Word) : Writes s o (respondOk s r) := .nothing rfl rfl rfl

/-- A value check chooses between two effects; what either may write, the command may. -/
theorem Writes.ite {s : State} {o : Opcode} {e e' : Effect} (c : Prop) [Decidable c] (h : c → Writes s o e)
    (h' : ¬ c → Writes s o e') : Writes s o (if c then e else e') := by
  split
  · exact h ‹c›
  · exact h' ‹¬ c›

theorem bodyOf_writes (i : Instr) (s : State) : Writes s i.opcode (bodyOf i s) := by
  cases i with
  | blkNop | crcRead | rxGetcap | rxStatus | blkParam => exact .respondOk s _ _
  | bcdFromdec | bcdFrompacked | bcdTopacked => exact .ite _ (fun _ => .respondOk s _ _) (fun _ => .failWith s _ _)
  | bcdCmp => exact .ite _ (fun _ => .nothing rfl rfl rfl) (fun _ => .failWith s _ _)
  | crcInit => exact .crc (.inl rfl) _ rfl rfl rfl
  | crcByte => exact .crc (.inr rfl) _ rfl rfl rfl
  | txStart => exact .wire (.inl rfl) rfl rfl
  | txData => exact .wire (.inr (.inl rfl)) rfl rfl
  | txEnd => exact .wire (.inr (.inr rfl)) rfl rfl
  | rxByte => exact .rxByte rfl _ rfl rfl rfl
  | rxAbort => exact .rxAbort rfl rfl rfl rfl
  | rxSetcap => exact .ite _ (fun _ => .failWith s _ _) (fun h => .cap rfl _ (Nat.le_of_not_lt h) rfl rfl rfl)

/-- Every command writes what its row allows, ill-formed commands nothing. -/
theorem effectOf_writes (i : Instr) (s : State) : Writes s i.opcode (effectOf i s) :=
  .ite _ (fun _ => bodyOf_writes i s) (fun _ => .failWith s _ _)

/-- The status of each well-formed command: `OK`, or the one its row has in the table of 60_exceptions.md rule R233. -/
theorem bodyOf_status (i : Instr) (s : State) :
    (bodyOf i s).resp.status = .ok ∨
    ((bodyOf i s).resp.status = .badOperand ∧ i.opcode = .rxSetcap) ∨
    ((bodyOf i s).resp.status = .outOfRange ∧
      (i.opcode = .bcdFromdec ∨ i.opcode = .bcdTopacked ∨ i.opcode = .bcdCmp)) ∨
    ((bodyOf i s).resp.status = .invalidDigit ∧ i.opcode = .bcdFrompacked) := by
  cases i <;> simp only [bodyOf]
  case bcdFromdec | bcdTopacked | bcdCmp =>
    split
    · exact .inl rfl
    · exact .inr (.inr (.inl ⟨rfl, by simp [Instr.opcode]⟩))
  case bcdFrompacked =>
    split
    · exact .inl rfl
    · exact .inr (.inr (.inr ⟨rfl, rfl⟩))
  case rxSetcap =>
    split
    · exact .inr (.inl ⟨rfl, rfl⟩)
    · exact .inl rfl
  all_goals exact .inl rfl

/-- The state with other register contents. -/
def State.mapRegs (f : Regs → Regs) (s : State) : State := { s with toRegs := f s.toRegs }

/-- The effect with other registers left behind. -/
def Effect.mapRegs (f : Regs → Regs) (e : Effect) : Effect := { e with regs := f e.regs }

/-- Whether an effect fits, and what else completing does, depends on no register. -/
theorem State.finish_mapRegs (f : Regs → Regs) (s : State) (e : Effect) :
    (s.mapRegs f).finish (e.mapRegs f) = (s.finish e).mapRegs f := by
  have hfits : (s.mapRegs f).fits (e.mapRegs f) = s.fits e := rfl
  cases h : s.fits e with
  | true => rw [State.finish_fits (hfits.trans h), State.finish_fits h]; rfl
  | false => rw [State.finish_holds (hfits.trans h), State.finish_holds h]

/-- A command whose effect carries other register contents through unchanged does the same with them. -/
theorem exec_mapRegs {f : Regs → Regs} {i : Instr} {s t : State}
    (hf : effectOf i (s.mapRegs f) = (effectOf i s).mapRegs f) (h : exec i s = .next t) :
    exec i (s.mapRegs f) = .next (t.mapRegs f) := by
  rw [exec_next] at h ⊢
  rw [h, hf, State.finish_mapRegs]

/-- The operand check carries other register contents through if the command proper does. -/
theorem effectOf_mapRegs {f : Regs → Regs} {i : Instr} {s : State}
    (hf : bodyOf i (s.mapRegs f) = (bodyOf i s).mapRegs f) :
    effectOf i (s.mapRegs f) = (effectOf i s).mapRegs f := by
  cases hw : i.wellFormed with
  | true => rw [effectOf_wellFormed hw, effectOf_wellFormed hw, hf]
  | false => rw [effectOf_illFormed hw, effectOf_illFormed hw]; rfl

/-- The registers with another value in `CRC`. -/
def Regs.setCrc (c : CrcWord) (r : Regs) : Regs := { r with crc := c }

/-- One raw byte's step with another value in `CRC`. -/
def RxStep.setCrc (c : CrcWord) (t : RxStep) : RxStep := { t with regs := t.regs.setCrc c }

theorem plainByte_setCrc (w : Byte) (r : Regs) (c : CrcWord) :
    plainByte w (r.setCrc c) = (plainByte w r).setCrc c := by
  unfold plainByte
  split <;> rfl

theorem rxUnescaped_setCrc (w : Byte) (r : Regs) (c : CrcWord) :
    rxUnescaped w (r.setCrc c) = (rxUnescaped w r).setCrc c := by
  have hover : overrun (r.setCrc c) = overrun r := rfl
  have hdrop : dropRead (r.setCrc c) = (dropRead r).setCrc c := rfl
  simp only [rxUnescaped, hover, hdrop, plainByte_setCrc]
  split <;> rfl

theorem rxResolved_setCrc (p : Params) (w : Byte) (r : Regs) (c : CrcWord) :
    rxResolved p w (r.setCrc c) = (rxResolved p w r).setCrc c := by
  have hbuf : (r.setCrc c).rxBuf = r.rxBuf := rfl
  have hstx : (r.setCrc c).rxStx = r.rxStx := rfl
  simp only [rxResolved, rxStart, rxEnd, hbuf, hstx]
  split_ifs <;> rfl

/-- The de-stuffer carries `CRC` through. -/
theorem rxStep_setCrc (p : Params) (w : Byte) (r : Regs) (c : CrcWord) :
    rxStep p w (r.setCrc c) = (rxStep p w r).setCrc c := by
  have hesc : (r.setCrc c).rxEsc = r.rxEsc := rfl
  simp only [rxStep, hesc, rxUnescaped_setCrc]
  split
  · exact rxResolved_setCrc p w { r with rxEsc := false } c
  · rfl

/-- No command outside the CRC unit reads `CRC`. -/
theorem bodyOf_setCrc {i : Instr} (hb : i.opcode ≠ .crcByte) (hr : i.opcode ≠ .crcRead) (hi : i.opcode ≠ .crcInit)
    (s : State) (c : CrcWord) : bodyOf i (s.mapRegs (Regs.setCrc c)) = (bodyOf i s).mapRegs (Regs.setCrc c) := by
  cases i with
  | crcByte => exact absurd rfl hb
  | crcRead => exact absurd rfl hr
  | crcInit => exact absurd rfl hi
  | bcdFromdec | bcdFrompacked | bcdTopacked | bcdCmp => simp only [bodyOf]; split <;> rfl
  | rxSetcap a =>
    change (if s.params.rxBufBytes - 1 < (u32Operand a).toNat then _ else _) = _
    simp only [bodyOf]; split <;> rfl
  | rxByte a =>
    change rxByteEffect _ (rxStep s.params (byteOperand a) (s.toRegs.setCrc c)) = _
    rw [rxStep_setCrc]; rfl
  | blkNop | txStart | txData | txEnd | rxAbort | rxGetcap | rxStatus | blkParam => rfl

section bcdOrTx
variable {i : Instr}
  (hi : i.opcode ∈ [Opcode.bcdFromdec, .bcdFrompacked, .bcdTopacked, .bcdCmp, .txStart, .txData, .txEnd])
include hi

/-- The BCD ALU and the stuffer read no register. -/
theorem bodyOf_mapRegs_of_bcd_or_tx (s : State) (f : Regs → Regs) :
    bodyOf i (s.mapRegs f) = (bodyOf i s).mapRegs f := by
  cases i with
  | bcdFromdec | bcdFrompacked | bcdTopacked | bcdCmp => simp only [bodyOf]; split <;> rfl
  | txStart | txData | txEnd => rfl
  | blkNop | crcInit | crcByte | crcRead | rxByte | rxAbort | rxSetcap | rxGetcap | rxStatus | blkParam =>
    simp [Instr.opcode] at hi

/-- The BCD ALU and the stuffer write no register. -/
theorem effectOf_regs_of_bcd_or_tx (s : State) : (effectOf i s).regs = s.toRegs := by
  cases effectOf_writes i s with
  | nothing hr | wire _ hr => exact hr
  | crc ho => rcases ho with ho | ho <;> simp [ho] at hi
  | rxByte ho | rxAbort ho | cap ho => simp [ho] at hi

end bcdOrTx

/-- A command in progress that is gone from the port afterwards completed. -/
theorem State.fits_of_finish_pending {s : State} {e : Effect} (hp : s.pending ≠ none)
    (ht : (s.finish e).pending = none) : s.fits e = true := by
  rcases s.finish_cases e with ⟨hf, -⟩ | ⟨-, hc⟩
  · exact hf
  · exact absurd (hc ▸ ht) hp

/-- Settles O18: a held command changes nothing, a completed one writes what `effectOf_writes` allows its row. -/
theorem eachRegisterIsWrittenByItsCommandsOnly : Obligations.EachRegisterIsWrittenByItsCommandsOnly := by
  intro i s t h
  rw [exec_next] at h
  subst h
  rcases s.finish_cases (effectOf i s) with ⟨-, hc⟩ | ⟨-, hc⟩ <;> rw [hc]
  · cases effectOf_writes i s with
    | nothing hr ht he => simp [hr, ht, he]
    | crc ho c hr ht he => rcases ho with ho | ho <;> simp [ho, hr, ht, he]
    | wire ho hr he => rcases ho with ho | ho | ho <;> simp [ho, hr, he]
    | rxByte ho w hr ht he => simp [ho, hr, ht, rxStep_frame]
    | rxAbort ho hr ht he => simp [ho, hr, ht, he]
    | cap ho c hc hr ht he => simp [ho, hr, ht, he]
  · simp

/-- Settles O19: with another value in `CRC`, the effect of such a command is the same but for that value. -/
theorem onlyCrcCommandsReadTheCrcRegister : Obligations.OnlyCrcCommandsReadTheCrcRegister := by
  intro i s t c hb hr hi h
  exact exec_mapRegs (effectOf_mapRegs (bodyOf_setCrc hb hr hi s c)) h

/-- Settles O20: such an effect leaves the registers (`effectOf_regs_of_bcd_or_tx`) and carries any others through. -/
theorem bcdAndStufferReadNoRegister : Obligations.BcdAndStufferReadNoRegister := by
  intro i s t r hi h
  refine ⟨?_, exec_mapRegs (f := fun _ => r) (effectOf_mapRegs (bodyOf_mapRegs_of_bcd_or_tx hi s _)) h⟩
  rw [exec_next.mp h]
  rcases s.finish_cases (effectOf i s) with ⟨-, hc⟩ | ⟨-, hc⟩ <;> rw [hc]
  exact effectOf_regs_of_bcd_or_tx hi s

/-- Settles O21: a completed command overwrites the response, and its effect does not read it (`effectOf_port`). -/
theorem noCommandReadsAnEarlierResponse : Obligations.NoCommandReadsAnEarlierResponse := by
  intro i s t r hp h ht
  rw [exec_next] at h ⊢
  subst h
  have hf := State.fits_of_finish_pending hp ht
  have he : effectOf i { s with response := r } = effectOf i s := effectOf_port i s s.pending r
  have hf' : State.fits { s with response := r } (effectOf i s) = true := hf
  rw [he, State.finish_fits hf, State.finish_fits hf']
  rfl

/-- Settles O17: the codes by the tables of their functions, the statuses by `bodyOf_status`. -/
theorem statusesComeFromTheirCommandsOnly : Obligations.StatusesComeFromTheirCommandsOnly := by
  refine ⟨⟨rfl, rfl, rfl, rfl, rfl, fun st => by cases st <;> rfl, by decide⟩,
    fun d => ⟨⟨rfl, rfl, rfl⟩, by simp [Event.kindCode, Event.reasonCode, DiagReason.code, Event.data], rfl, rfl, rfl⟩, ?_⟩
  intro i s t r hp hw h ht hresp
  rw [exec_next, effectOf_wellFormed hw] at h
  subst h
  rw [State.finish_fits (State.fits_of_finish_pending hp ht)] at hresp
  obtain rfl : (bodyOf i s).resp = r := Option.some.inj hresp
  rcases bodyOf_status i s with h | ⟨h, ho⟩ | ⟨h, ho⟩ | ⟨h, ho⟩
  · simp [h]
  all_goals simp [h, ho]

end Sys2Proof.Machine
end

section
/-! PROOFS. The command port: what the step is between commands, while a command holds and before the first reset
(70_reset_and_hazards.md rules R260 to R267). -/

namespace Sys2Proof.Machine

open Sys2Proof.Config Sys2Proof.Claims

section serve
variable {s : State} {rest : List HostAction}

theorem serveHost_idle (h : s.inputs = []) : s.serveHost = s := by simp [State.serveHost, h]

theorem serveHost_accepts {w : CommandWord} (h : s.inputs = .command w :: rest) (hp : s.pending = none) :
    s.serveHost = { s.acceptCommand w with inputs := rest } := by simp [State.serveHost, h, hp]

theorem serveHost_waits {w : CommandWord} (h : s.inputs = .command w :: rest) (hp : s.pending ≠ none) :
    s.serveHost = s := by
  obtain ⟨v, hv⟩ := Option.ne_none_iff_exists'.mp hp
  simp [State.serveHost, h, hv]

theorem serveHost_consumeTx {n : Nat} (h : s.inputs = .consumeTx n :: rest) :
    s.serveHost = { s.consumeTx n with inputs := rest } := by simp [State.serveHost, h]

theorem serveHost_consumeEv {n : Nat} (h : s.inputs = .consumeEv n :: rest) :
    s.serveHost = { s.consumeEv n with inputs := rest } := by simp [State.serveHost, h]

theorem serveHost_reset (h : s.inputs = .reset :: rest) :
    s.serveHost = { State.resetOf s.params with inputs := rest } := by simp [State.serveHost, h]

end serve

/-- What the host's turn can do: nothing, or one of its four actions (rule R267). -/
theorem serveHost_cases (s : State) :
    s.serveHost = s ∨
    (∃ w rest, s.serveHost = { s.acceptCommand w with inputs := rest }) ∨
    (∃ n rest, s.serveHost = { s.consumeTx n with inputs := rest }) ∨
    (∃ n rest, s.serveHost = { s.consumeEv n with inputs := rest }) ∨
    ∃ rest, s.inputs = .reset :: rest ∧ s.serveHost = { State.resetOf s.params with inputs := rest } := by
  cases h : s.inputs with
  | nil => exact .inl (serveHost_idle h)
  | cons x rest =>
    cases x with
    | command w =>
      by_cases hp : s.pending = none
      · exact .inr (.inl ⟨w, rest, serveHost_accepts h hp⟩)
      · exact .inl (serveHost_waits h hp)
    | consumeTx n => exact .inr (.inr (.inl ⟨n, rest, serveHost_consumeTx h⟩))
    | consumeEv n => exact .inr (.inr (.inr (.inl ⟨n, rest, serveHost_consumeEv h⟩)))
    | reset => exact .inr (.inr (.inr (.inr ⟨rest, rfl, serveHost_reset h⟩)))

/-- Between commands the step is the host's turn. -/
theorem step_between {s : State} (hr : s.resetDone = true) (hp : s.pending = none) : step s = .next s.serveHost := by
  simp [step, portStep, hr, hp]

/-- While a command holds the step is the host's turn, with reset a fault. -/
theorem step_holding {s : State} (hr : s.resetDone = true) (h : holding s) : step s = s.whileHolding := by
  obtain ⟨w, hp, hrun⟩ := h
  simp [step, portStep, hr, hp, hrun, afterRun]

/-- Between commands and while a command holds, any action of the host but reset takes place. -/
theorem step_serves {s : State} (hr : s.resetDone = true) (h : s.pending = none ∨ holding s)
    (hin : ∀ rest, s.inputs ≠ .reset :: rest) : step s = .next s.serveHost := by
  rcases h with hp | hh
  · exact step_between hr hp
  · rw [step_holding hr hh]
    rcases s.whileHolding_cases with ⟨rest, hreset, -⟩ | ⟨-, hw⟩
    · exact absurd hreset (hin rest)
    · exact hw

/-- A command in progress completes in the step, or holds. -/
theorem step_running {s : State} {w : CommandWord} (hr : s.resetDone = true) (hp : s.pending = some w) :
    (∃ e, step s = .next (s.complete e)) ∨ holding s := by
  obtain ⟨e, he, -⟩ := runCommand_eq w s
  rcases s.finish_cases e with ⟨-, hc⟩ | ⟨-, hc⟩ <;> rw [hc] at he
  · exact .inl ⟨e, by simp [step, portStep, hr, hp, he, afterRun]⟩
  · exact .inr ⟨w, hp, he⟩

/-- Every next state of a step, before or after the first reset: a command completed with an effect of its row that fits,
or it was the host's turn. -/
theorem step_next {s t : State} (h : step s = .next t) :
    (∃ o e, Writes s o e ∧ s.fits e = true ∧ t = s.complete e) ∨ t = s.serveHost := by
  cases hr : s.resetDone with
  | true =>
    rcases step_cases hr h with ⟨w, e, -, -, hf, rfl, ⟨i, -, rfl⟩ | ⟨-, rfl⟩⟩ | rfl
    · exact .inl ⟨_, _, effectOf_writes i s, hf, rfl⟩
    · exact .inl ⟨.blkNop, _, .failWith s _ _, hf, rfl⟩
    · exact .inr rfl
  | false =>
    rcases beforeReset_cases hr h with ⟨rest, hin, rfl⟩ | ⟨hin, rfl⟩
    · exact .inr (serveHost_reset hin).symm
    · exact .inr (serveHost_idle hin).symm

/-- Taking up to `n` of what there is raises the count by `n`, or exactly to what there is. -/
theorem exists_taken_of_min {taken len : Nat} (n : Nat) (h : taken ≤ len) :
    ∃ k, (taken + n ≤ len → k = n) ∧ (len < taken + n → taken + k = len) ∧ min (taken + n) len = taken + k :=
  ⟨min n (len - taken), by omega, by omega, by omega⟩

/-- Settles O8: between commands the step is the host's turn. -/
theorem commandIsAcceptedBetweenCommands : Obligations.CommandIsAcceptedBetweenCommands := by
  intro s hr hp
  rw [step_between hr hp]
  exact ⟨fun hin => by rw [serveHost_idle hin], fun w rest hin => by rw [serveHost_accepts hin hp]; rfl⟩

/-- Settles O9: `step_serves`, and the counts by `exists_taken_of_min`. -/
theorem hostConsumesFromTheFront : Obligations.HostConsumesFromTheFront := by
  intro s n rest hr hport
  constructor
  · intro hin hle
    obtain ⟨k, hall, hmost, hk⟩ := exists_taken_of_min n hle
    refine ⟨k, hall, hmost, ?_⟩
    rw [step_serves hr hport (by simp [hin]), serveHost_consumeTx hin, State.consumeTx, hk]
  · intro hin hle
    obtain ⟨k, hall, hmost, hk⟩ := exists_taken_of_min n hle
    refine ⟨k, hall, hmost, ?_⟩
    rw [step_serves hr hport (by simp [hin]), serveHost_consumeEv hin, State.consumeEv, hk]

/-- Settles O12: a command completes or holds, and the host's turn in a hold faults for reset alone. -/
theorem everyStepAfterResetAnswersANextState : Obligations.EveryStepAfterResetAnswersANextState := by
  intro s hr
  have hserve := And.intro (serveHost_resetDone hr) (serveHost_params s)
  cases hp : s.pending with
  | none => exact .inl ⟨_, step_between hr hp, hserve⟩
  | some w =>
    rcases step_running hr hp with ⟨e, he⟩ | hh
    · exact .inl ⟨_, he, hr, rfl⟩
    · rcases s.whileHolding_cases with ⟨rest, hin, hw⟩ | ⟨-, hw⟩
      · exact .inr ⟨hh, rest, hin, by rw [step_holding hr hh, hw, serveHost_reset hin]⟩
      · exact .inl ⟨_, by rw [step_holding hr hh, hw], hserve⟩

/-- Settles O22: completing appends, and of the host's actions only reset touches the streams. -/
theorem outputStreamsAreAppendOnly : Obligations.OutputStreamsAreAppendOnly := by
  intro s t h
  rcases step_next h with ⟨o, e, -, -, rfl⟩ | rfl
  · exact .inl ⟨⟨e.tx, rfl⟩, ⟨e.ev, rfl⟩⟩
  · rcases serveHost_cases s with h | ⟨w, rest, h⟩ | ⟨n, rest, h⟩ | ⟨n, rest, h⟩ | ⟨rest, hin, h⟩ <;> rw [h]
    case inr.inr.inr.inr => exact .inr ⟨rest, hin, rfl, rfl⟩
    all_goals exact .inl ⟨⟨[], by simp⟩, ⟨[], by simp⟩⟩

end Sys2Proof.Machine
end

section
/-! PROOFS. The invariant of the block (10_state.md rules R27, R34, R35; 43_framer_rx.md rule R188; 70_reset_and_hazards.md
rule R265): what it asks of the registers, of each queue and of the delivered frames, each kept by what writes it. -/

namespace Sys2Proof.Machine

open Sys2Proof.Config

/-- What the invariant asks of the registers (10_state.md rules R27, R34, R35). -/
structure RegsInv (p : Params) (r : Regs) : Prop where
  collectingHead : r.rxStx = true → r.rxBuf.head? = some p.pStx
  bufferFits : r.rxBuf.length ≤ p.rxBufBytes
  escapeFits : r.rxEsc = true → r.rxBuf.length ≤ p.rxBufBytes - 1
  capLegal : r.cap.toNat ≤ p.rxBufBytes - 1

/-- What the invariant asks of a queue of `depth` entries, `taken` of the `emitted` ones consumed (rule R265). -/
def QueueInv (depth taken emitted : Nat) : Prop := taken ≤ emitted ∧ emitted - taken ≤ depth

theorem State.inv_iff (s : State) :
    s.Inv ↔ RegsInv s.params s.toRegs ∧ QueueInv s.params.txFifoDepth s.txTaken s.txOut.length ∧
      QueueInv s.params.evFifoDepth s.evTaken s.evOut.length ∧ ∀ e ∈ s.evOut, e.wellShaped s.params :=
  ⟨fun h => ⟨⟨h.collectingHead, h.bufferFits, h.escapeFits, h.capLegal⟩, ⟨h.txTakenLe, h.txQueueFits⟩,
    ⟨h.evTakenLe, h.evQueueFits⟩, h.framesShaped⟩,
   fun ⟨hr, ht, he, hf⟩ => ⟨hr.collectingHead, hr.bufferFits, hr.escapeFits, hr.capLegal, ht.1, he.1, ht.2, he.2, hf⟩⟩

/-! The queues. -/

/-- Output that fits in what the queue leaves free. -/
theorem QueueInv.append {depth taken emitted k : Nat} (h : QueueInv depth taken emitted)
    (hk : k ≤ depth - (emitted - taken)) : QueueInv depth taken (emitted + k) := by
  unfold QueueInv at *; omega

theorem QueueInv.consume {depth taken emitted : Nat} (h : QueueInv depth taken emitted) (n : Nat) :
    QueueInv depth (min (taken + n) emitted) emitted := by
  unfold QueueInv at *; omega

theorem QueueInv.empty (depth : Nat) : QueueInv depth 0 0 := ⟨Nat.le_refl 0, Nat.zero_le depth⟩

/-! The registers. -/

section regs
variable {p : Params} {r : Regs}

theorem RegsInv.reset (p : Params) : RegsInv p Regs.reset := by
  obtain ⟨-, -, -, -, -, -, hcap, -⟩ := Params.facts p
  refine ⟨by simp [Regs.reset], by simp [Regs.reset], by simp [Regs.reset], ?_⟩
  have : Regs.reset.cap.toNat = capReset := rfl
  omega

/-- The buffer is not empty while collecting. -/
theorem RegsInv.buffer_ne_nil (h : RegsInv p r) (hs : r.rxStx = true) : r.rxBuf ≠ [] := by
  intro hb
  have := h.collectingHead hs
  simp [hb] at this

theorem RegsInv.setCrc (h : RegsInv p r) (c : CrcWord) : RegsInv p { r with crc := c } :=
  ⟨h.collectingHead, h.bufferFits, h.escapeFits, h.capLegal⟩

theorem RegsInv.setCap (h : RegsInv p r) {c : BitVec 32} (hc : c.toNat ≤ p.rxBufBytes - 1) :
    RegsInv p { r with cap := c } :=
  ⟨h.collectingHead, h.bufferFits, h.escapeFits, hc⟩

theorem RegsInv.clearEsc (h : RegsInv p r) : RegsInv p { r with rxEsc := false } :=
  ⟨h.collectingHead, h.bufferFits, nofun, h.capLegal⟩

theorem RegsInv.setEsc (h : RegsInv p r) (hl : r.rxBuf.length ≤ p.rxBufBytes - 1) :
    RegsInv p { r with rxEsc := true } :=
  ⟨h.collectingHead, h.bufferFits, fun _ => hl, h.capLegal⟩

theorem RegsInv.dropRead (h : RegsInv p r) : RegsInv p (dropRead r) :=
  ⟨nofun, Nat.zero_le _, fun _ => Nat.zero_le _, h.capLegal⟩

theorem RegsInv.abort (h : RegsInv p r) : RegsInv p { r with rxBuf := [], rxStx := false, rxEsc := false } :=
  ⟨nofun, Nat.zero_le _, nofun, h.capLegal⟩

/-- Collecting starts with a buffer of one byte, and every buffer holds two (rule R5). -/
theorem RegsInv.start (h : RegsInv p r) : RegsInv p { r with rxStx := true, rxBuf := [p.pStx] } := by
  obtain ⟨-, -, -, -, -, -, hbytes, -⟩ := Params.facts p
  have hroom : 1 ≤ p.rxBufBytes - 1 := by simp only [capReset] at hbytes; omega
  exact ⟨fun _ => rfl, hroom.trans (Nat.sub_le _ 1), fun _ => hroom, h.capLegal⟩

/-- A byte is appended where a byte is to spare and no escape is pending. -/
theorem RegsInv.bufAppend (h : RegsInv p r) (hesc : r.rxEsc = false) (hl : r.rxBuf.length ≤ p.rxBufBytes - 1)
    (b : Byte) : RegsInv p (bufAppend r b) := by
  obtain ⟨-, -, -, -, -, -, hbytes, -⟩ := Params.facts p
  refine ⟨fun hs => ?_, ?_, fun he => ?_, h.capLegal⟩
  · rw [bufAppend_rxBuf, List.head?_append_of_ne_nil _ (h.buffer_ne_nil hs)]
    exact h.collectingHead hs
  · rw [bufAppend_rxBuf, List.length_append, List.length_singleton]
    omega
  · simp [hesc] at he

theorem RegsInv.plainByte (h : RegsInv p r) (hesc : r.rxEsc = false) (hl : r.rxBuf.length ≤ p.rxBufBytes - 1)
    (w : Byte) : RegsInv p (plainByte w r) := by
  unfold Machine.plainByte
  split
  · exact h.setEsc hl
  · exact h.bufAppend hesc hl w

/-- One raw byte keeps the registers' part of the invariant: with no escape pending the guard bounds the buffer by `CAP`,
and a pending escape has left a byte to spare. -/
theorem RegsInv.rxStep (h : RegsInv p r) (w : Byte) : RegsInv p (rxStep p w r).regs := by
  rcases rxStep_cases p w r with ⟨hesc, hl, heq⟩ | ⟨hesc, -, heq⟩ | ⟨-, -, heq⟩ | ⟨hesc, -, heq⟩ | ⟨-, -, heq⟩ |
    ⟨hesc, -, -, -, heq⟩ <;> rw [heq]
  · exact h.plainByte hesc (hl.trans h.capLegal) w
  · exact h.dropRead.plainByte hesc (Nat.zero_le _) w
  · unfold rxStart
    split <;> exact h.clearEsc.start
  · unfold rxEnd
    split
    · exact h.clearEsc.dropRead
    · exact h.clearEsc.bufAppend rfl (h.escapeFits hesc) p.pEtx
  · exact h.clearEsc.dropRead
  · exact h.clearEsc.bufAppend rfl (h.escapeFits hesc) w

/-! The delivered frames. -/

/-- A buffer being collected, closed with `P_ETX`, is a well-shaped frame. -/
theorem RegsInv.frame_wellShaped (h : RegsInv p r) (hs : r.rxStx = true) :
    (Event.frame (r.rxBuf ++ [p.pEtx])).wellShaped p := by
  have hne := h.buffer_ne_nil hs
  refine ⟨?_, List.getLast?_concat, ?_⟩
  · rw [List.head?_append_of_ne_nil _ hne]
    exact h.collectingHead hs
  · have := List.length_pos_iff.mpr hne
    rw [List.length_append, List.length_singleton]
    omega

/-- Of the records of one raw byte only a resolved ETX's can be a frame. -/
theorem RegsInv.rxStep_wellShaped (h : RegsInv p r) (w : Byte) : ∀ e ∈ (Machine.rxStep p w r).events, e.wellShaped p := by
  rcases rxStep_cases p w r with ⟨-, -, heq⟩ | ⟨-, -, heq⟩ | ⟨-, -, heq⟩ | ⟨-, -, heq⟩ | ⟨-, -, heq⟩ |
    ⟨-, -, -, -, heq⟩ <;> rw [heq]
  · simp [absorbed]
  · simp [Event.wellShaped]
  · unfold rxStart
    split <;> simp [absorbed, Event.wellShaped]
  · unfold rxEnd
    split
    · simpa using h.frame_wellShaped ‹_›
    · simp [absorbed]
  · simp [rxCancel, Event.wellShaped]
  · simp [absorbed]

end regs

/-! Commands, the host's turn and the step. -/

section writes
variable {s : State} {o : Opcode} {e : Effect}

theorem Writes.regsInv (hw : Writes s o e) (h : RegsInv s.params s.toRegs) : RegsInv s.params e.regs := by
  cases hw with
  | nothing hr | wire _ hr => exact hr ▸ h
  | crc _ c hr => exact hr ▸ h.setCrc c
  | rxByte _ w hr => exact hr ▸ h.rxStep w
  | rxAbort _ hr => exact hr ▸ h.abort
  | cap _ c hc hr => exact hr ▸ h.setCap hc

theorem Writes.wellShaped (hw : Writes s o e) (h : RegsInv s.params s.toRegs) : ∀ x ∈ e.ev, x.wellShaped s.params := by
  cases hw with
  | rxByte _ w _ _ he => exact he ▸ h.rxStep_wellShaped w
  | nothing _ _ he | crc _ _ _ _ he | wire _ _ he | rxAbort _ _ _ he | cap _ _ _ _ _ he => simp [he]

/-- A completing command keeps the invariant. -/
theorem State.Inv.complete (h : s.Inv) (hw : Writes s o e) (hf : s.fits e = true) : (s.complete e).Inv := by
  rw [State.inv_iff] at h ⊢
  obtain ⟨hregs, htx, hev, hframes⟩ := h
  obtain ⟨htxFits, hevFits⟩ := (s.fits_iff e).mp hf
  refine ⟨hw.regsInv hregs, ?_, ?_, ?_⟩
  · simpa using htx.append htxFits
  · simpa using hev.append hevFits
  · exact List.forall_mem_append.mpr ⟨hframes, hw.wellShaped hregs⟩

end writes

theorem State.Inv.resetOf (p : Params) : (State.resetOf p).Inv :=
  (State.inv_iff _).mpr ⟨.reset p, .empty _, .empty _, by simp⟩

/-- The host's turn keeps the invariant. -/
theorem State.Inv.serveHost {s : State} (h : s.Inv) : s.serveHost.Inv := by
  rw [State.inv_iff] at h
  obtain ⟨hregs, htx, hev, hframes⟩ := h
  rcases serveHost_cases s with heq | ⟨w, rest, heq⟩ | ⟨n, rest, heq⟩ | ⟨n, rest, heq⟩ | ⟨rest, -, heq⟩ <;>
    rw [heq, State.inv_iff]
  · exact ⟨hregs, htx, hev, hframes⟩
  · exact ⟨hregs, htx, hev, hframes⟩
  · exact ⟨hregs, htx.consume n, hev, hframes⟩
  · exact ⟨hregs, htx, hev.consume n, hframes⟩
  · have hreset := (State.inv_iff _).mp (State.Inv.resetOf s.params)
    exact hreset

/-- Settles O14: reset empties buffer and queues, and `CAP_RESET` is below every legal `RX_BUF_BYTES` (`RegsInv.reset`). -/
theorem resetMeetsTheInvariant : Obligations.ResetMeetsTheInvariant := State.Inv.resetOf

/-- Settles O13: every next state completes a command (`State.Inv.complete`) or is the host's turn
(`State.Inv.serveHost`). -/
theorem everyStepKeepsTheInvariant : Obligations.EveryStepKeepsTheInvariant := by
  intro s t h hstep
  rcases step_next hstep with ⟨o, e, hw, hf, rfl⟩ | rfl
  · exact h.complete hw hf
  · exact h.serveHost

end Sys2Proof.Machine
end

section
/-! PROOFS. Issuing a command again (20_memory.md rule R62): a command that emits nothing, and whose effect in the state it
leaves is the effect it had, leaves that state as it is. -/

namespace Sys2Proof.Machine

open Sys2Proof.Claims

/-- What a command that emits nothing does, done again, changes nothing further. -/
theorem State.finish_silent_idem {s : State} {e : Effect} (ht : e.tx = []) (he : e.ev = []) :
    (s.finish e).finish e = s.finish e := by
  simp [State.finish_silent ht he]

/-- A silent command with the same effect in the state it left answers that state again. -/
theorem exec_repeats {i : Instr} {s t : State} (h : exec i s = .next t) (ht : (effectOf i s).tx = [])
    (he : (effectOf i s).ev = []) (hsame : effectOf i t = effectOf i s) : exec i t = .next t := by
  rw [exec_next] at h ⊢
  rw [hsame, h, State.finish_silent_idem ht he]

section stateless
variable {i : Instr}
  (hi : i.opcode ∈ [Opcode.bcdFromdec, .bcdFrompacked, .bcdTopacked, .bcdCmp, .crcRead, .rxGetcap, .rxStatus, .blkNop,
    .blkParam])
include hi

/-- The commands free of state are none of the writers: they leave the registers and emit nothing. -/
theorem effectOf_of_stateless (s : State) :
    (effectOf i s).regs = s.toRegs ∧ (effectOf i s).tx = [] ∧ (effectOf i s).ev = [] := by
  cases effectOf_writes i s with
  | nothing hr ht he => exact ⟨hr, ht, he⟩
  | crc ho => rcases ho with ho | ho <;> simp [ho] at hi
  | wire ho => rcases ho with ho | ho | ho <;> simp [ho] at hi
  | rxByte ho | rxAbort ho | cap ho => simp [ho] at hi

/-- The commands free of state answer, and do nothing else. -/
theorem exec_of_stateless (s : State) : exec i s = .next (answered s (effectOf i s).resp) := by
  obtain ⟨hr, ht, he⟩ := effectOf_of_stateless hi s
  rw [exec_eq, State.finish_silent ht he, hr]
  rfl

end stateless

section settling
variable {i : Instr} (hi : i.opcode ∈ [Opcode.crcInit, .rxAbort, .rxSetcap])
include hi

theorem effectOf_silent_of_settling (s : State) : (effectOf i s).tx = [] ∧ (effectOf i s).ev = [] := by
  cases effectOf_writes i s with
  | nothing _ ht he | crc _ _ _ ht he | rxAbort _ _ ht he | cap _ _ _ _ ht he => exact ⟨ht, he⟩
  | wire ho => rcases ho with ho | ho | ho <;> simp [ho] at hi
  | rxByte ho => simp [ho] at hi

/-- `CRC.INIT`, `RX.ABORT` and `RX.SETCAP` write constants or their operand, and `RX.SETCAP` checks its operand against a
build parameter: the effect computed over the registers they leave is the same. -/
theorem bodyOf_settled (s : State) : bodyOf i { s with toRegs := (bodyOf i s).regs } = bodyOf i s := by
  cases i with
  | crcInit | rxAbort => rfl
  | rxSetcap a =>
    by_cases h : s.params.rxBufBytes - 1 < (u32Operand a).toNat <;> simp [bodyOf, h, respondOk, failWith]
  | blkNop | bcdFromdec | bcdFrompacked | bcdTopacked | bcdCmp | crcByte | crcRead | txStart | txData | txEnd | rxByte
  | rxGetcap | rxStatus | blkParam => simp [Instr.opcode] at hi

theorem effectOf_settled (s : State) : effectOf i { s with toRegs := (effectOf i s).regs } = effectOf i s := by
  cases hw : i.wellFormed with
  | true => rw [effectOf_wellFormed hw, effectOf_wellFormed hw, bodyOf_settled hi]
  | false => rw [effectOf_illFormed hw, effectOf_illFormed hw]; rfl

/-- The state such a command leaves gives it the same effect. -/
theorem effectOf_finish_of_settling (s : State) : effectOf i (s.finish (effectOf i s)) = effectOf i s := by
  obtain ⟨ht, he⟩ := effectOf_silent_of_settling hi s
  rw [State.finish_silent ht he]
  exact (effectOf_port i { s with toRegs := (effectOf i s).regs } _ _).trans (effectOf_settled hi s)

end settling

/-- Settles O25: the commands free of state do not read the response they leave (`effectOf_port`), the other three do not
depend on what they write (`effectOf_finish_of_settling`); so each repeats its effect (`exec_repeats`). -/
theorem idempotentCommandsChangeNothingFurther : Obligations.IdempotentCommandsChangeNothingFurther := by
  intro i s
  constructor
  · intro hi
    obtain ⟨-, ht, he⟩ := effectOf_of_stateless hi s
    have hexec := exec_of_stateless hi s
    exact ⟨_, hexec, exec_repeats hexec ht he (effectOf_port i s _ _)⟩
  · intro hi
    obtain ⟨ht, he⟩ := effectOf_silent_of_settling hi s
    have hexec := exec_eq i s
    exact ⟨_, hexec, exec_repeats hexec ht he (effectOf_finish_of_settling hi s)⟩

end Sys2Proof.Machine
end

section
/-! PROOFS. The decoder and the encoder are inverse to each other (30_encoding.md rules R70, R71, R75, R76). -/

namespace Sys2Proof

theorem decode_of_opcodeOf {w : CommandWord} {o : Opcode} (h : opcodeOf (wordOp w) = some o) :
    decode w = .ok (o.instr (wordA w) (wordB w)) := by
  simp [decode, h]

theorem decode_of_unassigned {w : CommandWord} (h : opcodeOf (wordOp w) = none) :
    decode w = .error (.illegalOp (wordOp w)) := by
  simp [decode, h]

theorem opcodeOf_eq_none {op : Byte} (h : ∀ o : Opcode, o.code ≠ op) : opcodeOf op = none := by
  cases ho : opcodeOf op with
  | none => rfl
  | some o => exact absurd (code_of_opcodeOf op o ho) (h o)

@[simp] theorem encode_instr (o : Opcode) (a b : Word) : encode (o.instr a b) = commandWord o.code a b := by
  simp [encode]

theorem decode_encode (i : Instr) : decode (encode i) = .ok i := by
  have ho : opcodeOf (wordOp (encode i)) = some i.opcode := (Laws.OpcodeByte.encode_row i).2
  rw [decode_of_opcodeOf ho, encode, wordA_commandWord, wordB_commandWord, i.instr_opcode]

theorem encode_of_decode {w : CommandWord} {i : Instr} (h : decode w = .ok i) : encode i = w := by
  cases ho : opcodeOf (wordOp w) with
  | none => rw [decode_of_unassigned ho] at h; cases h
  | some o =>
    rw [decode_of_opcodeOf ho] at h
    cases h
    rw [encode_instr, code_of_opcodeOf _ o ho, commandWord_fields]

/-- Settles O1: the three fields of an encoded word are the command's, and its `OP` selects the command's row. -/
theorem decodingAnEncodedCommandGivesItBack : Obligations.DecodingAnEncodedCommandGivesItBack := decode_encode

/-- Settles O2: an accepted word's `OP` is the row's code, and a word is its three fields. -/
theorem encodingADecodedWordGivesItBack : Obligations.EncodingADecodedWordGivesItBack := fun _ _ => encode_of_decode

/-- Settles O5: a row's word is the encoding of its command, an `OP` of no row is rejected, and an accepted word has the
fields of the command it encodes. -/
theorem decodingLooksAtOpAlone : Obligations.DecodingLooksAtOpAlone := by
  intro op a b
  refine ⟨fun o ho => ?_, fun hop => ?_, fun i hi => ?_⟩
  · rw [← ho, ← encode_instr, decode_encode]
  · rw [decode_commandWord, opcodeOf_eq_none hop]
  · have hw : commandWord i.opcode.code i.opA i.opB = commandWord op a b := encode_of_decode hi
    refine ⟨?_, ?_, ?_⟩
    · rw [← wordOp_commandWord op a b, ← hw, wordOp_commandWord]
    · rw [← wordA_commandWord op a b, ← hw, wordA_commandWord]
    · rw [← wordB_commandWord op a b, ← hw, wordB_commandWord]

/-- Settles O3: each of the six words is the encoding of its command. -/
theorem wordsOfTheSpecDecode : Obligations.WordsOfTheSpecDecode :=
  ⟨decode_encode (.blkNop 0 0), decode_encode (.bcdCmp 0xFFFFFFFFFFFFFFFF 0x4B), decode_encode (.crcByte 0x41 0),
    decode_encode (.txData 0x10 0), decode_encode (.rxByte 0x18 0), decode_encode (.rxSetcap 0x19000 0)⟩

/-- Settles O4: the rows in their order, each function's value by its table. -/
theorem opcodeMapRowsAreTheSpecs : Obligations.OpcodeMapRowsAreTheSpecs := rfl

end Sys2Proof
end

section
/-! PROOFS. A word on the port is run (30_encoding.md rules R74, R76; 70_reset_and_hazards.md rules R264, R265): the command
it decodes to completes or holds, an unassigned `OP` completes, and from empty queues every word completes. -/

namespace Sys2Proof.Machine

open Sys2Proof.Config Sys2Proof.Claims

section running
variable {s : State} {w : CommandWord}

theorem runCommand_of_decode {i : Instr} (h : decode w = .ok i) : runCommand w s = exec i s := by
  simp [runCommand, h]

theorem runCommand_of_unassigned (h : opcodeOf (wordOp w) = none) :
    runCommand w s = .next (answered s ⟨.illegalOp, 0, 0⟩) := by
  simp only [runCommand, decode_of_unassigned h, State.rejectOpcode, State.finish_failWith]
  rfl

/-- A run that leaves the port free is the step. -/
theorem step_of_completed {t : State} (hr : s.resetDone = true) (hp : s.pending = some w)
    (hrun : runCommand w s = .next t) (ht : t.pending = none) : step s = .next t := by
  simp [step, portStep, hr, hp, hrun, afterRun, ht]

end running

/-- While a command holds, it is the host's turn. -/
theorem hostTurn_of_holding {s : State} (hr : s.resetDone = true) (h : holding s) : hostTurn s := by
  rw [hostTurn, step_holding hr h]
  rcases s.whileHolding_cases with ⟨rest, hin, hw⟩ | ⟨hin, hw⟩
  · exact ⟨fun hne => absurd hin (hne rest), fun _ _ => hw⟩
  · exact ⟨fun _ => hw, fun rest hreset => absurd hreset (hin rest)⟩

/-- Settles O7: the command's effect fits, and the step is its completion, or it does not, and the command holds. -/
theorem stepRunsTheDecodedCommand : Obligations.StepRunsTheDecodedCommand := by
  intro s w i hr hp hd
  have hrun : runCommand w s = .next (s.finish (effectOf i s)) := by rw [runCommand_of_decode hd, exec_eq]
  refine ⟨_, exec_eq i s, ?_⟩
  rcases s.finish_cases (effectOf i s) with ⟨-, hc⟩ | ⟨-, hc⟩ <;> rw [hc] at hrun ⊢
  · exact .inl ⟨rfl, step_of_completed hr hp hrun rfl⟩
  · exact .inr ⟨rfl, hostTurn_of_holding hr ⟨w, hp, hrun⟩⟩

/-- Settles O6: no row has such an `OP` (`opcodeOf_unassigned`), so the word completes in the step with `ILLEGAL_OP`. -/
theorem unassignedOpcodesAnswerIllegalOp : Obligations.UnassignedOpcodesAnswerIllegalOp := by
  intro s op a b hr hp hop
  have hnone : opcodeOf (wordOp (commandWord op a b)) = none := by
    rw [wordOp_commandWord, opcodeOf_unassigned op hop]
  exact step_of_completed hr hp (runCommand_of_unassigned hnone) rfl

/-- Settles O15: the effect of an ill-formed command is a failure, which always fits. -/
theorem reservedBitsAnswerBadOperand : Obligations.ReservedBitsAnswerBadOperand := by
  intro i s h
  rw [exec_eq, effectOf_illFormed h, State.finish_failWith]
  rfl

/-! What one command emits fits in an empty queue. -/

theorem escapeByte_length_le (b : Byte) : (escapeByte b).length ≤ 2 := by
  by_cases h : b = pSyn
  · subst h; simp
  · simp [escapeByte_of_ne h]

theorem bodyOf_tx_length_le (i : Instr) (s : State) : (bodyOf i s).tx.length ≤ 2 := by
  cases i with
  | txStart | txEnd => exact Nat.le_refl 2
  | txData a => exact escapeByte_length_le (byteOperand a)
  | bcdFromdec | bcdFrompacked | bcdTopacked | bcdCmp | rxSetcap =>
    simp only [bodyOf]; split <;> exact Nat.zero_le 2
  | blkNop | crcInit | crcByte | crcRead | rxByte | rxAbort | rxGetcap | rxStatus | blkParam => exact Nat.zero_le 2

theorem effectOf_tx_length_le (i : Instr) (s : State) : (effectOf i s).tx.length ≤ 2 := by
  cases hw : i.wellFormed with
  | true => exact effectOf_wellFormed hw s ▸ bodyOf_tx_length_le i s
  | false => simp [effectOf_illFormed hw]

/-- Of the writers `RX.BYTE` alone emits records, at most two (`rxStep_events_le`). -/
theorem Writes.ev_length_le {s : State} {o : Opcode} {e : Effect} (h : Writes s o e) : e.ev.length ≤ 2 := by
  cases h with
  | rxByte _ w _ _ he => exact he ▸ rxStep_events_le s.params w s.toRegs
  | nothing _ _ he | crc _ _ _ _ he | wire _ _ he | rxAbort _ _ _ he | cap _ _ _ _ _ he => simp [he]

/-- Each queue has two entries at least (rule R5), all of them free once the host has consumed everything. -/
theorem fits_of_drained {s : State} (htx : s.txTaken = s.txOut.length) (hev : s.evTaken = s.evOut.length) {e : Effect}
    (het : e.tx.length ≤ 2) (hee : e.ev.length ≤ 2) : s.fits e = true := by
  obtain ⟨-, -, -, -, -, -, -, -, htxDepth, hevDepth⟩ := Params.facts s.params
  rw [State.fits_iff, State.txFree, State.evFree, State.txQueued, State.evQueued]
  omega

/-- Settles O24: whatever the word's effect, it emits at most two bytes and two records. -/
theorem everyCommandCompletesFromEmptyQueues : Obligations.EveryCommandCompletesFromEmptyQueues := by
  intro s w htx hev
  obtain ⟨e, hrun, he⟩ := runCommand_eq w s
  have hfits : s.fits e = true := by
    rcases he with ⟨i, -, rfl⟩ | ⟨-, rfl⟩
    · exact fits_of_drained htx hev (effectOf_tx_length_le i s) (effectOf_writes i s).ev_length_le
    · exact State.fits_silent rfl rfl
  exact ⟨_, e.resp, hrun, by rw [State.finish_fits hfits]; exact ⟨rfl, rfl⟩⟩

end Sys2Proof.Machine
end

section
/-! PROOFS. The pseudo-instructions `CRC.SPAN` and `TX.FRAME` (30_encoding.md rules R79, R80): what their commands do one
after the other (41_crc.md rule R135, 42_framer_tx.md rule R154), and which buffers are frames. -/

namespace Sys2Proof.Machine

open Sys2Proof.Config

/-! Issuing one command. -/

section issue
variable {i : Instr} {s : State} (hw : i.wellFormed = true)
include hw

/-- A well-formed command that emits nothing completes when issued. -/
theorem issue_silent (ht : (bodyOf i s).tx = []) (he : (bodyOf i s).ev = []) :
    issue i s = some { s with
      toRegs := (bodyOf i s).regs
      response := some (bodyOf i s).resp
      pending := none } := by
  have hf : s.fits (bodyOf i s) = true := State.fits_silent ht he
  rw [issue_eq, effectOf_wellFormed hw, if_pos hf, ← State.finish_fits hf, State.finish_silent ht he]

/-- A well-formed command that emits bytes alone completes when they fit, and answers their number. -/
theorem issue_emitBytes {bs : List Byte} (hb : bodyOf i s = emitBytes s bs) (hfree : bs.length ≤ s.txFree) :
    issue i s = some { s with
      txOut := s.txOut ++ bs
      response := some ⟨.ok, 0, BitVec.ofNat 64 bs.length⟩
      pending := none } := by
  have hf : s.fits (emitBytes s bs) = true := (s.fits_iff _).mpr ⟨hfree, Nat.zero_le _⟩
  rw [issue_eq, effectOf_wellFormed hw, hb, if_pos hf]
  simp [State.complete, emitBytes]

end issue

theorem issueAll_cons {i : Instr} {s t : State} (h : issue i s = some t) (is : List Instr) :
    issueAll (i :: is) s = issueAll is t := by
  simp [issueAll, h]

/-! `CRC.SPAN`. -/

theorem issue_crcInit (s : State) :
    issue (.crcInit 0 0) s = some { s with crc := 0, response := some ⟨.ok, 0, 0⟩, pending := none } :=
  issue_silent rfl rfl rfl

theorem issue_crcByte (b : Byte) (s : State) :
    issue (.crcByte (zext64 b) 0) s = some { s with
      crc := crcStep s.crc b
      response := some ⟨.ok, 0, zext64 (crcStep s.crc b)⟩
      pending := none } := by
  have hb : byteOperand (zext64 b) = b := byteOperand_setWidth b
  rw [issue_silent (i := .crcByte (zext64 b) 0) (wellFormed_crcByte b) rfl rfl]
  simp only [bodyOf, hb, respondOk]

theorem issue_crcRead (s : State) :
    issue (.crcRead 0 0) s = some { s with response := some ⟨.ok, 0, zext64 s.crc⟩, pending := none } :=
  issue_silent rfl rfl rfl

/-- `CRC.BYTE` of each byte and `CRC.READ` fold `crcStep` over the bytes, from whatever `CRC` holds. -/
theorem issueAll_crcBytes_crcRead (bytes : List Byte) (s : State) :
    issueAll (bytes.map (fun b => .crcByte (zext64 b) 0) ++ [.crcRead 0 0]) s = some { s with
      crc := bytes.foldl crcStep s.crc
      response := some ⟨.ok, 0, zext64 (bytes.foldl crcStep s.crc)⟩
      pending := none } := by
  induction bytes generalizing s with
  | nil => exact issueAll_cons (issue_crcRead s) []
  | cons b bs ih =>
    rw [List.map_cons, List.cons_append, issueAll_cons (issue_crcByte b s), ih]
    rfl

/-- Settles O37: `CRC.INIT` leaves the seed 0, from which the other commands fold the bytes. -/
theorem crcSpanComputesTheChecksum : Obligations.CrcSpanComputesTheChecksum := by
  intro s bytes
  rw [crcSpan, List.append_assoc, List.singleton_append, issueAll_cons (issue_crcInit s), issueAll_crcBytes_crcRead]
  rfl

/-! `TX.FRAME`. -/

theorem issue_txStart {s : State} (h : 2 ≤ s.txFree) :
    issue (.txStart 0 0) s = some { s with
      txOut := s.txOut ++ [pSyn, s.params.pStx]
      response := some ⟨.ok, 0, 2⟩
      pending := none } :=
  issue_emitBytes rfl rfl h

theorem issue_txEnd {s : State} (h : 2 ≤ s.txFree) :
    issue (.txEnd 0 0) s = some { s with
      txOut := s.txOut ++ [pSyn, s.params.pEtx]
      response := some ⟨.ok, 0, 2⟩
      pending := none } :=
  issue_emitBytes rfl rfl h

theorem issue_txData {b : Byte} {s : State} (h : (escapeByte b).length ≤ s.txFree) :
    issue (.txData (zext64 b) 0) s = some { s with
      txOut := s.txOut ++ escapeByte b
      response := some ⟨.ok, 0, BitVec.ofNat 64 (escapeByte b).length⟩
      pending := none } := by
  have hb : byteOperand (zext64 b) = b := byteOperand_setWidth b
  exact issue_emitBytes (i := .txData (zext64 b) 0) (wellFormed_txData b) (by rw [bodyOf, hb]) h

/-- `TX.DATA` of each byte and `TX.END` append the escaped bytes and SYN ETX, where they fit. -/
theorem issueAll_txData_txEnd (inner : List Byte) (s : State)
    (h : (inner.flatMap escapeByte).length + 2 ≤ s.txFree) :
    issueAll (inner.map (fun b => .txData (zext64 b) 0) ++ [.txEnd 0 0]) s = some { s with
      txOut := s.txOut ++ (inner.flatMap escapeByte ++ [pSyn, s.params.pEtx])
      response := some ⟨.ok, 0, 2⟩
      pending := none } := by
  induction inner generalizing s with
  | nil => exact issueAll_cons (issue_txEnd (by simpa using h)) []
  | cons b bs ih =>
    rw [List.flatMap_cons, List.length_append, Nat.add_assoc] at h
    rw [List.map_cons, List.cons_append, issueAll_cons (issue_txData (Nat.le_of_add_right_le h)),
      ih _ (txFree_append s _ _ h _ _)]
    simp

/-- A frame buffer is `P_STX`, some inner bytes, `P_ETX`. -/
theorem isFrame_iff (p : Params) (f : List Byte) :
    isFrame p f = true ↔ f = [p.pStx] ++ innerBytes f ++ [p.pEtx] := by
  constructor
  · intro h
    simp only [isFrame, Bool.and_eq_true, decide_eq_true_eq, beq_iff_eq] at h
    obtain ⟨⟨hlen, hhead⟩, hlast⟩ := h
    obtain ⟨rest, rfl⟩ := List.head?_eq_some_iff.mp hhead
    have hne : rest ≠ [] := by rintro rfl; simp at hlen
    rw [List.getLast?_cons_of_ne_nil hne] at hlast
    simp [innerBytes, List.dropLast_append_getLast? _ hlast]
  · intro h
    rw [h]
    simp only [isFrame, List.getLast?_concat]
    simp

theorem txFrame_framed (p : Params) (inner : List Byte) :
    txFrame p ([p.pStx] ++ inner ++ [p.pEtx]) =
      some ([.txStart 0 0] ++ inner.map (fun b => .txData (zext64 b) 0) ++ [.txEnd 0 0]) := by
  have hframe : isFrame p ([p.pStx] ++ inner ++ [p.pEtx]) = true := by rw [isFrame_iff, innerBytes_framed]
  rw [txFrame, if_pos hframe, innerBytes_framed]

theorem isFrame_of_txFrame {p : Params} {f : List Byte} {is : List Instr} (h : txFrame p f = some is) :
    isFrame p f = true := by
  by_contra hf
  simp [txFrame, hf] at h

/-- Settles O44: the accepted buffers are the frames (`isFrame_iff`), and each has one expansion (`txFrame_framed`). -/
theorem txFrameExpandsFramesAndNothingElse : Obligations.TxFrameExpandsFramesAndNothingElse := by
  intro p f is
  constructor
  · intro h
    have hf := (isFrame_iff p f).mp (isFrame_of_txFrame h)
    rw [hf, txFrame_framed] at h
    exact ⟨innerBytes f, hf, (Option.some.inj h).symm⟩
  · rintro ⟨inner, rfl, rfl⟩
    exact txFrame_framed p inner

/-- The wire form, with each SYN doubled where `escapeByte` says so. -/
theorem flatMap_escapeByte (inner : List Byte) :
    (inner.flatMap fun d => if d = 0x10 then [0x10, 0x10] else [d]) = inner.flatMap escapeByte := by
  congr 1
  funext d
  by_cases h : d = pSyn
  · subst h; rfl
  · rw [escapeByte_of_ne h]; exact if_neg h

/-- Settles O41: the wire form by `wire_framed`; the commands by `txFrame_framed`, each taking its bytes from what the queue
leaves free. -/
theorem txFrameAppendsTheWireForm : Obligations.TxFrameAppendsTheWireForm := by
  intro s inner f w
  have hwire : wire s.params f = w := by
    rw [wire_framed, ← flatMap_escapeByte]; rfl
  refine ⟨hwire, fun hfree => ⟨_, txFrame_framed s.params inner, ?_⟩⟩
  rw [← hwire, wire_framed] at hfree ⊢
  have hstart : [pSyn, s.params.pStx].length + ((inner.flatMap escapeByte).length + 2) ≤ s.txFree := by
    simp only [List.length_cons, List.length_append, List.length_nil] at hfree ⊢
    omega
  rw [List.append_assoc, List.singleton_append, issueAll_cons (issue_txStart (Nat.le_of_add_right_le hstart)),
    issueAll_txData_txEnd _ _ (txFree_append s _ _ hstart _ _)]
  simp

end Sys2Proof.Machine
end

section
/-! PROOFS. The assembler's literals (30_encoding.md rules R73, R74, R77). -/

namespace Sys2Proof.Machine

open Sys2Proof.Claims

theorem literalOperand_of_fits {c : OperandClass} {x : Int} (h : literalFits c x) :
    literalOperand c x = some (BitVec.ofInt 64 x) := by
  cases c with
  | noOperand => exact h.elim
  | i64 | p48 | u8 | u32 | i64x2 => exact if_pos h

theorem literalOperand_of_not_fits {c : OperandClass} {x : Int} (h : ¬ literalFits c x) : literalOperand c x = none := by
  cases c with
  | noOperand => rfl
  | i64 | p48 | u8 | u32 | i64x2 => exact if_neg h

theorem literalOperand_eq_some {c : OperandClass} {x : Int} {a : Word} (h : literalOperand c x = some a) :
    literalFits c x ∧ a = BitVec.ofInt 64 x := by
  by_cases hf : literalFits c x
  · rw [literalOperand_of_fits hf] at h
    exact ⟨hf, (Option.some.inj h).symm⟩
  · rw [literalOperand_of_not_fits hf] at h
    cases h

theorem toNat_ofInt_of_fits {x : Int} (h : 0 ≤ x ∧ x < 2 ^ 64) : (BitVec.ofInt 64 x).toNat = x.toNat := by
  rw [BitVec.toNat_ofInt]
  omega

/-- The pattern of a literal in range has no bit above the bits its class reads. -/
theorem reservedClear_of_literalFits {c : OperandClass} {x : Int} (h : literalFits c x) :
    reservedClear c (BitVec.ofInt 64 x) 0 = true := by
  cases c with
  | noOperand => exact h.elim
  | i64 | i64x2 => rfl
  | p48 =>
    obtain ⟨hlow, hhigh⟩ := h
    exact (reservedClear_p48 _ _).mpr ⟨by rw [toNat_ofInt_of_fits (by omega)]; omega, rfl⟩
  | u8 =>
    obtain ⟨hlow, hhigh⟩ := h
    exact (reservedClear_u8 _ _).mpr ⟨by rw [toNat_ofInt_of_fits (by omega)]; omega, rfl⟩
  | u32 =>
    obtain ⟨hlow, hhigh⟩ := h
    exact (reservedClear_u32 _ _).mpr ⟨by rw [toNat_ofInt_of_fits (by omega)]; omega, rfl⟩

theorem assembleCommand_noOperand {o : Opcode} (h : operandClass o = .noOperand) :
    assembleCommand o [] = .ok (o.instr 0 0) := by
  simp only [assembleCommand, h]

section oneLiteral
variable {o : Opcode} {x : Int} (ho : operandClass o ∈ [OperandClass.i64, .p48, .u8, .u32])
include ho

theorem assembleCommand_one_of_fits (h : literalFits (operandClass o) x) :
    assembleCommand o [x] = .ok (o.instr (BitVec.ofInt 64 x) 0) := by
  have hx := literalOperand_of_fits h
  unfold assembleCommand
  cases hc : operandClass o with
  | noOperand | i64x2 => simp [hc] at ho
  | i64 | p48 | u8 | u32 => rw [hc] at hx; simp only [hx]

theorem assembleCommand_one_of_not_fits (h : ¬ literalFits (operandClass o) x) :
    assembleCommand o [x] = .error .outOfRange := by
  have hx := literalOperand_of_not_fits h
  unfold assembleCommand
  cases hc : operandClass o with
  | noOperand | i64x2 => simp [hc] at ho
  | i64 | p48 | u8 | u32 => rw [hc] at hx; simp only [hx]

end oneLiteral

section twoLiterals
variable {o : Opcode} {x y : Int} (ho : operandClass o = .i64x2)
include ho

theorem assembleCommand_two_of_fits (h : literalFits .i64x2 x ∧ literalFits .i64x2 y) :
    assembleCommand o [x, y] = .ok (o.instr (BitVec.ofInt 64 x) (BitVec.ofInt 64 y)) := by
  simp only [assembleCommand, ho, literalOperand_of_fits h.1, literalOperand_of_fits h.2]

theorem assembleCommand_two_of_not_fits (h : ¬ (literalFits .i64x2 x ∧ literalFits .i64x2 y)) :
    assembleCommand o [x, y] = .error .outOfRange := by
  by_cases hx : literalFits .i64x2 x
  · have hy : ¬ literalFits .i64x2 y := fun hy => h ⟨hx, hy⟩
    simp only [assembleCommand, ho, literalOperand_of_fits hx, literalOperand_of_not_fits hy]
  · simp only [assembleCommand, ho, literalOperand_of_not_fits hx]

end twoLiterals

/-- Settles O59: the command or the refusal of each number of literals, by whether they are in their class's range. -/
theorem assemblerRefusesLiteralsOutOfRange : Obligations.AssemblerRefusesLiteralsOutOfRange := fun _ _ _ =>
  ⟨assembleCommand_noOperand,
    fun ho => ⟨assembleCommand_one_of_fits ho, assembleCommand_one_of_not_fits ho⟩,
    fun ho => ⟨assembleCommand_two_of_fits ho, assembleCommand_two_of_not_fits ho⟩⟩

/-- What the assembler makes: the row's command, of operand fields whose reserved-zero bits are clear. -/
theorem assembleCommand_ok {o : Opcode} {xs : List Int} {i : Instr} :
    assembleCommand o xs = .ok i → ∃ a b, i = o.instr a b ∧ reservedClear (operandClass o) a b = true := by
  fun_cases assembleCommand o xs with
  | case1 hc =>
    rintro ⟨⟩
    exact ⟨0, 0, rfl, by rw [hc]; rfl⟩
  | case2 x y hc a b =>
    rintro ⟨⟩
    exact ⟨a, b, rfl, by rw [hc]; rfl⟩
  | case6 x a _ _ hx =>
    rintro ⟨⟩
    obtain ⟨hfits, rfl⟩ := literalOperand_eq_some hx
    exact ⟨_, 0, rfl, reservedClear_of_literalFits hfits⟩
  | case3 | case4 | case5 | case7 | case8 => rintro ⟨⟩

/-- Settles O60: `assembleCommand_ok`, and a command of a row is well formed by the row's class. -/
theorem assembledCommandsAreWellFormed : Obligations.AssembledCommandsAreWellFormed := by
  intro o xs i h
  obtain ⟨a, b, rfl, hclear⟩ := assembleCommand_ok h
  exact ⟨by simpa [Instr.wellFormed] using hclear, o.instr_opcode a b⟩

end Sys2Proof.Machine
end

section
/-! PROOFS. The packed-decimal ALU (40_bcd.md rules R101 to R111): what each of its commands answers, and the two directions
of the packed mapping, which are inverse to each other because digits determine their number. -/

namespace Sys2Proof.Machine

open Sys2Proof.Config Sys2Proof.Claims

/-! What each command answers. -/

/-- A command free of state that makes one value check answers with its effect's response or with the check's status. -/
theorem exec_of_check {i : Instr} {s : State} {c : Bool} {P : Prop} [Decidable P] {e : Effect} {st : Status}
    (hi : i.opcode ∈ [Opcode.bcdFromdec, .bcdFrompacked, .bcdTopacked, .bcdCmp, .crcRead, .rxGetcap, .rxStatus, .blkNop,
      .blkParam])
    (hw : i.wellFormed = true) (hbody : bodyOf i s = if c then e else failWith s st) (hc : c = true ↔ P) :
    exec i s = .next (answered s (if P then e.resp else ⟨st, 0, 0⟩)) := by
  rw [exec_of_stateless hi, effectOf_wellFormed hw, hbody]
  by_cases hP : P
  · rw [if_pos hP, if_pos (hc.mpr hP)]
  · rw [if_neg hP, if_neg (mt hc.mp hP), failWith_resp]

theorem exec_bcdFromdec (a : Word) (s : State) : exec (.bcdFromdec a 0) s = .next (answered s
    (if -500000000000 ≤ a.toInt ∧ a.toInt ≤ 499999999999 then ⟨.ok, 0, a⟩ else outOfRange)) :=
  exec_of_check (i := .bcdFromdec a 0) (by simp [Instr.opcode]) ((reservedClear_i64 a 0).mpr rfl) rfl (isBcd_iff a)

theorem exec_bcdTopacked (a : Word) (s : State) : exec (.bcdTopacked a 0) s = .next (answered s
    (if -500000000000 ≤ a.toInt ∧ a.toInt ≤ 499999999999 then ⟨.ok, 0, (packedOfValue a.toInt).setWidth 64⟩
     else outOfRange)) :=
  exec_of_check (i := .bcdTopacked a 0) (by simp [Instr.opcode]) ((reservedClear_i64 a 0).mpr rfl) rfl (isBcd_iff a)

theorem exec_bcdCmp (a b : Word) (s : State) : exec (.bcdCmp a b) s = .next (answered s
    (if (-500000000000 ≤ a.toInt ∧ a.toInt ≤ 499999999999) ∧ (-500000000000 ≤ b.toInt ∧ b.toInt ≤ 499999999999) then
      ⟨.ok, compareFlags a.toInt b.toInt, compareResult a.toInt b.toInt⟩
     else outOfRange)) :=
  exec_of_check (i := .bcdCmp a b) (by simp [Instr.opcode]) (reservedClear_i64x2 a b) rfl
    (by rw [Bool.and_eq_true, isBcd_iff, isBcd_iff])

/-- The six bytes' nibbles are the field's twelve hexadecimal digits. -/
theorem validPacked_iff (a : Word) : validPacked (packedBytes a) = true ↔ ∀ j < 12, nibble a.toNat j ≤ 9 := by
  have hbytes : validPacked (packedBytes a) = true ↔
      ∀ k < 6, nibble a.toNat (11 - 2 * k) ≤ 9 ∧ nibble a.toNat (10 - 2 * k) ≤ 9 := by
    simp only [validPacked, packedBytes, List.all_map, List.all_eq_true, List.mem_range, Function.comp_apply,
      Bool.and_eq_true, decide_eq_true_eq]
    refine forall₂_congr fun k hk => ?_
    rw [highNibble_packedByte a k hk, lowNibble_packedByte a k hk]
    rfl
  rw [hbytes]
  constructor
  · intro h j hj
    obtain ⟨hhigh, hlow⟩ := h ((11 - j) / 2) (by omega)
    obtain hodd | heven : 11 - 2 * ((11 - j) / 2) = j ∨ 10 - 2 * ((11 - j) / 2) = j := by omega
    · rwa [hodd] at hhigh
    · rwa [heven] at hlow
  · exact fun h k hk => ⟨h _ (by omega), h _ (by omega)⟩

section packedOperand
variable {a : Word} {m : Nat} (ha : a.toNat = m) (hm : m < 2 ^ 48)
include ha hm

theorem exec_bcdFrompacked (s : State) : exec (.bcdFrompacked a 0) s = .next (answered s
    (if validPacked (packedBytes a) then ⟨.ok, 0, BitVec.ofInt 64 (valueOfRaw (spelled m))⟩
     else ⟨.invalidDigit, 0, 0⟩)) := by
  subst ha
  have hraw : rawOf a = spelled a.toNat := rawOf_eq_digitSum a
  rw [← hraw]
  exact exec_of_check (i := .bcdFrompacked a 0) (by simp [Instr.opcode]) ((reservedClear_p48 a 0).mpr ⟨hm, rfl⟩) rfl
    Iff.rfl

theorem exec_bcdFrompacked_of_valid (h : ∀ j < 12, nibble m j ≤ 9) (s : State) :
    exec (.bcdFrompacked a 0) s = .next (answered s ⟨.ok, 0, BitVec.ofInt 64 (valueOfRaw (spelled m))⟩) := by
  rw [exec_bcdFrompacked ha hm, if_pos ((validPacked_iff a).mpr (ha ▸ h))]

theorem exec_bcdFrompacked_of_invalid (h : ∃ j < 12, 9 < nibble m j) (s : State) :
    exec (.bcdFrompacked a 0) s = .next (answered s ⟨.invalidDigit, 0, 0⟩) := by
  obtain ⟨j, hj, hnibble⟩ := h
  have hinvalid : ¬ validPacked (packedBytes a) = true := fun hvalid =>
    Nat.not_lt.mpr ((validPacked_iff a).mp hvalid j hj) (ha ▸ hnibble)
  rw [exec_bcdFrompacked ha hm, if_neg hinvalid]

end packedOperand

/-- A 48-bit form on the 64-bit bus field. -/
theorem toNat_setWidth_packed (p : BitVec 48) : (p.setWidth 64).toNat = p.toNat :=
  BitVec.toNat_setWidth_of_le (by decide)

/-! Values and magnitudes. -/

theorem valueOfRaw_bounds (n : Nat) : -500000000000 ≤ valueOfRaw n ∧ valueOfRaw n ≤ 499999999999 := by
  simp only [valueOfRaw, bcdMin, bcdMod]
  omega

theorem rawOfValue_cast (v : Int) : (rawOfValue v : Int) = v % 1000000000000 := by
  simp only [rawOfValue, bcdMod]
  omega

theorem rawOfValue_lt (v : Int) : rawOfValue v < 1000000000000 := by
  have := rawOfValue_cast v
  omega

theorem valueOfRaw_rawOfValue {v : Int} (h : -500000000000 ≤ v ∧ v ≤ 499999999999) : valueOfRaw (rawOfValue v) = v := by
  rw [valueOfRaw, rawOfValue_cast, bcdMin, bcdMod]
  omega

theorem rawOfValue_valueOfRaw {n : Nat} (h : n < 1000000000000) : rawOfValue (valueOfRaw n) = n := by
  simp only [rawOfValue, valueOfRaw, bcdMin, bcdMod]
  omega

/-- A `Bcd` value is read back from its 64-bit pattern. -/
theorem toInt_ofInt_of_bcd {v : Int} (h : -500000000000 ≤ v ∧ v ≤ 499999999999) : (BitVec.ofInt 64 v).toInt = v :=
  BitVec.toInt_ofInt_eq_self (by decide) (by omega) (by omega)

/-! Digits of packed forms. -/

/-- Twelve equal digits make equal numbers, in any base. -/
theorem digitSum_congr (b : Nat) {f g : Nat → Nat} (h : ∀ j < 12, f j = g j) :
    ((List.range 12).map fun j => f j * b ^ j).sum = ((List.range 12).map fun j => g j * b ^ j).sum :=
  congrArg List.sum (List.map_congr_left fun j hj => by rw [h j (List.mem_range.mp hj)])

/-- Hexadecimal digit `j` of a packed form is decimal digit `j` of the magnitude (rule R104). -/
theorem nibble_packedOfValue (v : Int) {j : Nat} (hj : j < 12) :
    nibble (packedOfValue v).toNat j = digit (rawOfValue v) j := by
  rw [packedOfValue_toNat]
  exact digitSum_digit 16 (by decide) _ 12 (fun i _ => (digit_lt _ i).trans (by decide)) j hj

theorem nibble_packedOfValue_le (v : Int) : ∀ j < 12, nibble (packedOfValue v).toNat j ≤ 9 := by
  intro j hj
  rw [nibble_packedOfValue v hj]
  exact Nat.le_of_lt_succ (digit_lt _ j)

theorem spelled_packedOfValue (v : Int) : spelled (packedOfValue v).toNat = rawOfValue v := by
  rw [spelled, digitSum_congr 10 fun j hj => nibble_packedOfValue v hj]
  exact (digitSum_of_number 10 (rawOfValue v) 12).trans (Nat.mod_eq_of_lt (rawOfValue_lt v))

section validForm
variable {m : Nat} (h : ∀ j < 12, nibble m j ≤ 9)
include h

theorem spelled_lt : spelled m < 1000000000000 :=
  digitSum_lt 10 (by decide) _ 12 fun j hj => Nat.lt_succ_of_le (h j hj)

/-- Decimal digit `j` of the number a valid form spells is its hexadecimal digit `j` (rule R102). -/
theorem digit_spelled {j : Nat} (hj : j < 12) : digit (spelled m) j = nibble m j :=
  digitSum_digit 10 (by decide) _ 12 (fun i hi => Nat.lt_succ_of_le (h i hi)) j hj

/-- A valid form spells 999999999999 exactly when it is all nines. -/
theorem spelled_eq_nines_iff : spelled m = 999999999999 ↔ ∀ j < 12, nibble m j = 9 := by
  constructor
  · intro hm j hj
    have hnines : ∀ j < 12, digit 999999999999 j = 9 := by decide
    rw [← digit_spelled h hj, hm, hnines j hj]
  · intro hm
    rw [spelled, digitSum_congr 10 hm]
    rfl

end validForm

theorem packedOfValue_of_spelled {p : BitVec 48} (h : ∀ j < 12, nibble p.toNat j ≤ 9) :
    packedOfValue (valueOfRaw (spelled p.toNat)) = p := by
  apply BitVec.eq_of_toNat_eq
  calc (packedOfValue (valueOfRaw (spelled p.toNat))).toNat
      = ((List.range 12).map fun j => digit (spelled p.toNat) j * 16 ^ j).sum := by
        rw [packedOfValue_toNat, rawOfValue_valueOfRaw (spelled_lt h)]
    _ = ((List.range 12).map fun j => p.toNat / 16 ^ j % 16 * 16 ^ j).sum :=
        digitSum_congr 16 fun j hj => digit_spelled h hj
    _ = p.toNat := (digitSum_of_number 16 p.toNat 12).trans (Nat.mod_eq_of_lt p.isLt)

/-- A byte above 0x99 holds a hexadecimal digit above 9 (rule R110). -/
theorem exists_nibble_of_byte {m k : Nat} (hk : k < 6) (h : 0x99 < m / 256 ^ k % 256) : ∃ j < 12, 9 < nibble m j := by
  have hpow : 256 ^ k = 16 ^ (2 * k) := (pow_mul 16 2 k).symm
  have hlow : nibble m (2 * k) = m / 256 ^ k % 16 := by rw [nibble, hpow]
  have hhigh : nibble m (2 * k + 1) = m / 256 ^ k / 16 % 16 := by rw [nibble, pow_succ, ← Nat.div_div_eq_div_mul, hpow]
  by_cases hl : 9 < nibble m (2 * k)
  · exact ⟨_, by omega, hl⟩
  · exact ⟨_, by omega, show 9 < nibble m (2 * k + 1) by omega⟩

/-! The statements. -/

/-- Settles O31: the packed form is valid and spells the value's magnitude, which stands for the value. -/
theorem packedRoundTripReturnsTheValue : Obligations.PackedRoundTripReturnsTheValue := by
  intro v s hlow hhigh
  have hv := toInt_ofInt_of_bcd ⟨hlow, hhigh⟩
  refine ⟨(packedOfValue v).setWidth 64, ?_, fun s' => ?_⟩
  · rw [exec_bcdTopacked, hv, if_pos ⟨hlow, hhigh⟩]
  · rw [exec_bcdFrompacked_of_valid (toNat_setWidth_packed _) (BitVec.isLt _) (nibble_packedOfValue_le v),
      spelled_packedOfValue, valueOfRaw_rawOfValue ⟨hlow, hhigh⟩]

/-- Settles O32: a valid form is the packed form of the value it spells (`packedOfValue_of_spelled`), and a byte above 0x99
makes the form invalid (`exists_nibble_of_byte`). -/
theorem validPackedFormsRoundTrip : Obligations.ValidPackedFormsRoundTrip := by
  intro p s
  have hp := toNat_setWidth_packed p
  refine ⟨fun hvalid => ?_, fun ⟨k, hk, hbyte⟩ => ?_⟩
  · have hbcd := valueOfRaw_bounds (spelled p.toNat)
    refine ⟨_, hbcd.1, hbcd.2, exec_bcdFrompacked_of_valid hp p.isLt hvalid s, fun s' => ?_⟩
    rw [exec_bcdTopacked, toInt_ofInt_of_bcd hbcd, if_pos hbcd, packedOfValue_of_spelled hvalid]
  · exact exec_bcdFrompacked_of_invalid hp p.isLt (exists_nibble_of_byte hk hbyte) s

/-- Settles O28: the command's answer, with the value of the spelled magnitude as in `valueOfRaw_eq`. -/
theorem frompackedReadsTheTwelveDigits : Obligations.FrompackedReadsTheTwelveDigits := by
  intro s a b
  refine ⟨fun h => reservedBitsAnswerBadOperand _ s (not_reservedClear_p48 h), fun ha =>
    ⟨fun h => exec_bcdFrompacked_of_invalid rfl ha h s, fun hvalid => ?_⟩⟩
  rw [exec_bcdFrompacked_of_valid rfl ha hvalid, valueOfRaw_eq _ (spelled_lt hvalid)]

/-- Settles O29: the result is the packed form, whose digits `nibble_packedOfValue` names. -/
theorem topackedWritesTheTwelveDigits : Obligations.TopackedWritesTheTwelveDigits := by
  intro s a b
  refine ⟨fun hb => reservedBitsAnswerBadOperand _ s (not_reservedClear_i64 hb), fun h => ?_, fun h => ?_⟩
  · rw [exec_bcdTopacked, if_neg (by omega)]
  · refine ⟨(packedOfValue a.toInt).setWidth 64, ?_, ?_, fun j hj => ?_⟩
    · rw [exec_bcdTopacked, if_pos h]
    · rw [toNat_setWidth_packed]
      exact BitVec.isLt _
    · rw [toNat_setWidth_packed, nibble_packedOfValue _ hj, digit]
      push_cast
      rw [rawOfValue_cast]

/-- Settles O33: the value is negative when the spelled magnitude is 500000000000 or more, which its leading digit decides,
and is -1 when the magnitude is 999999999999. -/
theorem mostSignificantDigitIsTheSign : Obligations.MostSignificantDigitIsTheSign := by
  intro p s hvalid
  have hlt := spelled_lt hvalid
  have hvalue := valueOfRaw_eq _ hlt
  have htop : spelled p.toNat / 100000000000 % 10 = nibble p.toNat 11 := digit_spelled hvalid (j := 11) (by decide)
  refine ⟨_, exec_bcdFrompacked_of_valid (toNat_setWidth_packed p) p.isLt hvalid s, ?_⟩
  rw [toInt_ofInt_of_bcd (valueOfRaw_bounds _), ← spelled_eq_nines_iff hvalid]
  split at hvalue <;> omega

/-- Settles O27: the command's answer on either side of each bound. -/
theorem fromdecValidatesTheRange : Obligations.FromdecValidatesTheRange := by
  intro s a b
  refine ⟨fun hb => reservedBitsAnswerBadOperand _ s (not_reservedClear_i64 hb), fun h => ?_, fun h => ?_⟩
  · rw [exec_bcdFromdec, if_neg (by omega)]
  · rw [exec_bcdFromdec, if_pos h]

/-- Settles O30: the command's answer, the flags and the result in each of the three orders. -/
theorem cmpOrdersBySignedValue : Obligations.CmpOrdersBySignedValue := by
  intro s a b
  refine ⟨fun h => ?_, fun ha hb => ?_⟩
  · rw [exec_bcdCmp, if_neg (by omega)]
  · rw [exec_bcdCmp, if_pos ⟨ha, hb⟩]
    refine ⟨fun heq => ?_, fun hlt => ?_, fun hgt => ?_⟩
    · simp only [heq, compareFlags, compareResult, if_true]; rfl
    · simp only [compareFlags, compareResult, hlt, hlt.ne, if_true, if_false]; rfl
    · simp only [compareFlags, compareResult, hgt.ne', hgt.not_gt, if_false]; rfl

end Sys2Proof.Machine
end

section
/-! PROOFS. The CRC-16 generator (41_crc.md rules R130 to R137). `crcStep` and the bit-serial CRC are both linear over
XOR, so they agree when they do on each byte of their arguments alone (rule R136). Two bytes of data act as sixteen
shifts of the register XOR the two bytes, and a shift loses nothing, so each checksum has exactly one last byte pair
(rule R137). -/

namespace Sys2Proof.Machine

open Sys2Proof.Config Sys2Proof.Claims

/-! One bit of data. -/

theorem crcBit_eq (r : CrcWord) (bit : Bool) :
    crcBit r bit = (r <<< 1) ^^^ (if (r.getLsbD 15 ^^ bit) then 0x1021 else 0) := by
  unfold crcBit
  split <;> simp

/-- The bit-serial CRC is linear over XOR, in the register and the data together. -/
theorem crcBit_xor (r r' : CrcWord) (bit bit' : Bool) :
    crcBit (r ^^^ r') (bit ^^ bit') = crcBit r bit ^^^ crcBit r' bit' := by
  have hmsb : ((r ^^^ r').getLsbD 15 ^^ (bit ^^ bit')) = ((r.getLsbD 15 ^^ bit) ^^ (r'.getLsbD 15 ^^ bit')) := by
    simp only [BitVec.getLsbD_xor, Bool.xor_assoc, Bool.xor_left_comm]
  have hfeedback (p q : Bool) : (if (p ^^ q) then 0x1021 else 0 : CrcWord) =
      (if p then 0x1021 else 0) ^^^ (if q then 0x1021 else 0) := by
    cases p <;> cases q <;> rfl
  rw [crcBit_eq, crcBit_eq, crcBit_eq, hmsb, hfeedback, BitVec.shiftLeft_xor_distrib]
  ac_rfl

/-- One shift of the register: the bit-serial CRC of a zero bit. -/
def crcShift (r : CrcWord) : CrcWord := crcBit r false

/-- Data XORed into the register before a shift: the leading bit meets the feedback, the others move up. -/
theorem crcShift_xor (r d : CrcWord) : crcShift (r ^^^ d) = crcBit r (d.getLsbD 15) ^^^ (d <<< 1) := by
  have hlead : crcBit d (d.getLsbD 15) = d <<< 1 := by simp [crcBit]
  rw [crcShift, ← hlead, ← crcBit_xor, Bool.xor_self]

/-- A shift loses nothing: bit 0 shows the feedback, and without feedback the bit shifted out is clear. -/
theorem eq_zero_of_crcShift_eq_zero {r : CrcWord} (h : crcShift r = 0) : r = 0 := by
  cases hmsb : r.getLsbD 15 with
  | true =>
    simp only [crcShift, crcBit, hmsb, Bool.xor_false, if_true] at h
    simpa using congrArg (BitVec.getLsbD · 0) h
  | false =>
    simp only [crcShift, crcBit, hmsb, Bool.xor_false, Bool.false_eq_true, if_false] at h
    ext i hi
    rcases Nat.lt_succ_iff_lt_or_eq.mp hi with hlt | rfl
    · simpa [Nat.succ_lt_succ hlt] using congrArg (BitVec.getLsbD · (i + 1)) h
    · simpa using hmsb

theorem crcShift_bijective : Function.Bijective crcShift := by
  have : Finite CrcWord := Finite.of_injective BitVec.toFin fun _ _ => BitVec.eq_of_toFin_eq
  refine Finite.injective_iff_bijective.mp fun r r' h => BitVec.xor_eq_zero_iff.mp (eq_zero_of_crcShift_eq_zero ?_)
  rw [crcShift, ← Bool.xor_false false, crcBit_xor]
  exact BitVec.xor_eq_zero_iff.mpr h

/-! One byte of data. -/

theorem crcBits_xor (r r' : CrcWord) (b b' : Byte) : crcBits (r ^^^ r') (b ^^^ b') = crcBits r b ^^^ crcBits r' b' := by
  simp only [crcBits, List.foldl_cons, List.foldl_nil, BitVec.getLsbD_xor, crcBit_xor]

theorem and_xor_distrib_right {w : Nat} (x y m : BitVec w) : (x ^^^ y) &&& m = (x &&& m) ^^^ (y &&& m) := by
  ext i
  simp [Bool.and_xor_distrib_right]

/-! The lines of `crcStep` after the first (rule R130), each linear over XOR. -/

/-- `r ^= (r & 0x00FF) >> 4`. -/
def lowNibbleLine (q : CrcWord) : CrcWord := q ^^^ ((q &&& 0x00FF) >>> 4)

/-- `r ^= r << 12`. -/
def topNibbleLine (q : CrcWord) : CrcWord := q ^^^ (q <<< 12)

/-- `r ^= (r & 0x00FF) << 5`. -/
def lowByteLine (q : CrcWord) : CrcWord := q ^^^ ((q &&& 0x00FF) <<< 5)

theorem crcStep_eq_lines (r : CrcWord) (b : Byte) : crcStep r b =
    lowByteLine (topNibbleLine (lowNibbleLine ((r.extractLsb' 0 8 ++ r.extractLsb' 8 8) ^^^ b.setWidth 16))) := rfl

theorem lowNibbleLine_xor (q q' : CrcWord) : lowNibbleLine (q ^^^ q') = lowNibbleLine q ^^^ lowNibbleLine q' := by
  simp only [lowNibbleLine, and_xor_distrib_right, BitVec.ushiftRight_xor_distrib]
  ac_rfl

theorem topNibbleLine_xor (q q' : CrcWord) : topNibbleLine (q ^^^ q') = topNibbleLine q ^^^ topNibbleLine q' := by
  simp only [topNibbleLine, BitVec.shiftLeft_xor_distrib]
  ac_rfl

theorem lowByteLine_xor (q q' : CrcWord) : lowByteLine (q ^^^ q') = lowByteLine q ^^^ lowByteLine q' := by
  simp only [lowByteLine, and_xor_distrib_right, BitVec.shiftLeft_xor_distrib]
  ac_rfl

theorem swapped_xor_data (r r' : CrcWord) (b b' : Byte) :
    ((r ^^^ r').extractLsb' 0 8 ++ (r ^^^ r').extractLsb' 8 8) ^^^ (b ^^^ b').setWidth 16 =
      ((r.extractLsb' 0 8 ++ r.extractLsb' 8 8) ^^^ b.setWidth 16) ^^^
        ((r'.extractLsb' 0 8 ++ r'.extractLsb' 8 8) ^^^ b'.setWidth 16) := by
  rw [BitVec.extractLsb'_xor, BitVec.extractLsb'_xor, ← BitVec.xor_append, BitVec.setWidth_xor]
  ac_rfl

theorem crcStep_xor (r r' : CrcWord) (b b' : Byte) : crcStep (r ^^^ r') (b ^^^ b') = crcStep r b ^^^ crcStep r' b' := by
  rw [crcStep_eq_lines, swapped_xor_data, lowNibbleLine_xor, topNibbleLine_xor, lowByteLine_xor]
  rfl

/-- The two agree on the data byte alone, the register's high byte alone and its low byte alone. -/
theorem crcStep_eq_crcBits_of_byte : ∀ c : Byte, crcStep 0 c = crcBits 0 c ∧
    crcStep (c ++ 0#8) 0 = crcBits (c ++ 0#8) 0 ∧ crcStep (0#8 ++ c) 0 = crcBits (0#8 ++ c) 0 := by
  decide +kernel

/-- A linear function's value is the XOR of its values on the three bytes, each alone. -/
theorem linear_eq_xor_of_bytes {f : CrcWord → Byte → CrcWord}
    (hf : ∀ r r' b b', f (r ^^^ r') (b ^^^ b') = f r b ^^^ f r' b') (hi lo b : Byte) :
    f (hi ++ lo) b = f 0 b ^^^ (f (hi ++ 0#8) 0 ^^^ f (0#8 ++ lo) 0) := by
  rw [← hf, ← hf, BitVec.xor_append]
  simp

theorem crcStep_eq_crcBits (r : CrcWord) (b : Byte) : crcStep r b = crcBits r b := by
  obtain ⟨hi, lo, rfl⟩ : ∃ hi lo : Byte, hi ++ lo = r := ⟨_, _, BitVec.extractLsb'_append_extractLsb'⟩
  obtain ⟨hdata, -, -⟩ := crcStep_eq_crcBits_of_byte b
  obtain ⟨-, hhigh, -⟩ := crcStep_eq_crcBits_of_byte hi
  obtain ⟨-, -, hlow⟩ := crcStep_eq_crcBits_of_byte lo
  rw [linear_eq_xor_of_bytes crcStep_xor, linear_eq_xor_of_bytes crcBits_xor, hdata, hhigh, hlow]

/-- Settles O36: the steps agree (`crcStep_eq_crcBits`), so their folds from the seed 0 do. -/
theorem crcStepIsTheBitSerialCrc : Obligations.CrcStepIsTheBitSerialCrc := by
  have hstep : crcStep = crcBits := funext₂ crcStep_eq_crcBits
  refine ⟨crcStep_eq_crcBits, fun bytes => ?_, by decide⟩
  rw [checksum16, hstep]
  rfl

/-! Sequences of bytes. -/

theorem checksum16_append (s t : List Byte) : checksum16 (s ++ t) = t.foldl crcStep (checksum16 s) := List.foldl_append

theorem foldl_crcStep_xor {s t : List Byte} (h : s.length = t.length) (r r' : CrcWord) :
    (List.zipWith (· ^^^ ·) s t).foldl crcStep (r ^^^ r') = s.foldl crcStep r ^^^ t.foldl crcStep r' := by
  induction s generalizing t r r' with
  | nil =>
    obtain rfl := List.eq_nil_of_length_eq_zero h.symm
    rfl
  | cons b bs ih =>
    cases t with
    | nil => cases h
    | cons c cs =>
      rw [List.zipWith_cons_cons, List.foldl_cons, crcStep_xor, ih (Nat.succ.inj h)]
      rfl

theorem foldl_crcStep_zeros (n : Nat) : (List.replicate n (0 : Byte)).foldl crcStep 0 = 0 := by
  induction n with
  | zero => rfl
  | succ n ih => exact ih

theorem shiftLeft_eight_append (x y : Byte) : (x ++ y) <<< 8 = y ++ 0#8 := by
  apply BitVec.eq_of_toNat_eq
  have := y.isLt
  rw [BitVec.toNat_shiftLeft, append_toNat, append_toNat, Nat.shiftLeft_eq]
  simp
  omega

/-- Eight shifts take the leading byte of the XORed data through the bit-serial CRC and move the other one up. -/
theorem crcShift_iterate_eight (r : CrcWord) (x y : Byte) :
    crcShift^[8] (r ^^^ (x ++ y)) = crcBits r x ^^^ (y ++ 0#8) := by
  have hbits : crcShift^[8] (r ^^^ (x ++ y)) = crcBits r ((x ++ y).extractLsb' 8 8) ^^^ ((x ++ y) <<< 8) := by
    simp [crcBits, crcShift_xor]
  rw [hbits, BitVec.extractLsb'_append_eq_left, shiftLeft_eight_append]

/-- Two bytes of data act as sixteen shifts of the register XOR the bytes. -/
theorem foldl_crcStep_pair (r : CrcWord) (x y : Byte) : [x, y].foldl crcStep r = crcShift^[16] (r ^^^ (x ++ y)) := by
  calc [x, y].foldl crcStep r
      = crcBits (crcBits r x) y := by simp [crcStep_eq_crcBits]
    _ = crcShift^[8] (crcBits r x ^^^ (y ++ 0#8)) := by
      rw [crcShift_iterate_eight, BitVec.zero_append_zero, BitVec.xor_zero]
    _ = crcShift^[8 + 8] (r ^^^ (x ++ y)) := by rw [Function.iterate_add_apply, crcShift_iterate_eight r x y]

/-- The pair that takes `r` to `target` is `target` sixteen shifts back, XOR `r`. -/
theorem existsUnique_last_pair (r target : CrcWord) : ∃ x y : Byte, [x, y].foldl crcStep r = target ∧
    ∀ x' y' : Byte, [x', y'].foldl crcStep r = target → x' = x ∧ y' = y := by
  obtain ⟨hinj, hsurj⟩ := crcShift_bijective.iterate 16
  obtain ⟨q, rfl⟩ := hsurj target
  obtain ⟨x, y, hxy⟩ : ∃ x y : Byte, x ++ y = r ^^^ q := ⟨_, _, BitVec.extractLsb'_append_extractLsb'⟩
  have hq : r ^^^ (x ++ y) = q := by rw [hxy, ← BitVec.xor_assoc, BitVec.xor_self, BitVec.zero_xor]
  refine ⟨x, y, by rw [foldl_crcStep_pair, hq], fun x' y' h => ?_⟩
  rw [foldl_crcStep_pair, ← hq] at h
  have hpair : x' ++ y' = x ++ y := (BitVec.xor_right_inj r).mp (hinj h)
  constructor
  · simpa only [BitVec.extractLsb'_append_eq_left] using congrArg (BitVec.extractLsb' 8 8) hpair
  · simpa only [BitVec.extractLsb'_append_eq_right] using congrArg (BitVec.extractLsb' 0 8) hpair

/-- Settles O38: the fold is linear (`foldl_crcStep_xor`), leading zeros leave it at the seed 0, and after any prefix
the last byte pair is unique (`existsUnique_last_pair`). -/
theorem checksumIsAffineAndLastTwoBytesDecideIt : Obligations.ChecksumIsAffineAndLastTwoBytesDecideIt := by
  refine ⟨fun s t h => foldl_crcStep_xor h 0 0, fun n s => ?_, fun pre target => ?_⟩
  · rw [checksum16_append]
    exact congrArg (s.foldl crcStep) (foldl_crcStep_zeros n)
  · simp only [checksum16_append]
    exact existsUnique_last_pair _ _

/-! The commands. -/

/-- A well-formed command that emits nothing completes in every state. -/
theorem exec_silent {i : Instr} (hw : i.wellFormed = true) {s : State} (ht : (bodyOf i s).tx = [])
    (he : (bodyOf i s).ev = []) :
    exec i s = .next { s with toRegs := (bodyOf i s).regs, response := some (bodyOf i s).resp, pending := none } := by
  rw [exec_eq, effectOf_wellFormed hw, State.finish_silent ht he]

/-- Settles O34: both commands are silent, and a set operand bit is a reserved one. -/
theorem crcInitAndReadAnswer : Obligations.CrcInitAndReadAnswer := by
  intro s
  refine ⟨exec_silent rfl rfl rfl, exec_silent rfl rfl rfl, fun a b h => ?_⟩
  have hreserved := not_reservedClear_noOperand h
  exact ⟨reservedBitsAnswerBadOperand _ s hreserved, reservedBitsAnswerBadOperand _ s hreserved⟩

/-- Settles O35: the command is silent, with the byte operand `byteOperand_setWidth` names. -/
theorem crcByteStepsTheRegister : Obligations.CrcByteStepsTheRegister := by
  intro s
  refine ⟨fun d => ?_, fun a b h => reservedBitsAnswerBadOperand _ s (not_reservedClear_u8 h)⟩
  have hbody : bodyOf (.crcByte (d.setWidth 64) 0) s =
      { respondOk s (zext64 (crcStep s.crc d)) with regs := { s.toRegs with crc := crcStep s.crc d } } := by
    rw [bodyOf, byteOperand_setWidth]
  rw [exec_silent (wellFormed_crcByte d) (by rw [hbody]; rfl) (by rw [hbody]; rfl), hbody]
  rfl

end Sys2Proof.Machine
end

section
/-! PROOFS. The stuffer: what each of its commands appends to `TX_OUT` (42_framer_tx.md rules R151 to R153), and how long a
wire form is (rule R155). -/

namespace Sys2Proof.Machine

open Sys2Proof.Config

/-- Each SYN adds one byte to the escaped form. -/
theorem length_flatMap_escapeByte (inner : List Byte) :
    (inner.flatMap escapeByte).length = inner.length + inner.count pSyn := by
  induction inner with
  | nil => rfl
  | cons b bs ih =>
    rw [List.flatMap_cons, List.length_append, ih]
    by_cases h : b = pSyn
    · subst h
      simp only [escapeByte_syn, List.length_cons, List.length_nil, List.count_cons_self]
      omega
    · simp only [escapeByte_of_ne h, List.length_cons, List.length_nil, List.count_cons_of_ne h]
      omega

/-- Settles O42: the two escaped sentinels are four bytes, the rest is `length_flatMap_escapeByte`. -/
theorem wireLengthCountsInnerSyns : Obligations.WireLengthCountsInnerSyns := by
  intro p inner
  rw [wire_framed]
  simp only [List.length_cons, List.length_append, List.length_nil, length_flatMap_escapeByte]
  change _ = inner.length + 2 + 2 + inner.count pSyn
  omega

/-- A well-formed command that emits bytes alone completes when they fit, and answers their number. -/
theorem exec_emitBytes {i : Instr} {s : State} {bs : List Byte} (hw : i.wellFormed = true)
    (hb : bodyOf i s = emitBytes s bs) (hfree : bs.length ≤ s.txFree) :
    exec i s = .next { s with
      txOut := s.txOut ++ bs
      response := some ⟨.ok, 0, BitVec.ofNat 64 bs.length⟩
      pending := none } := by
  have hf : s.fits (emitBytes s bs) = true := (s.fits_iff _).mpr ⟨hfree, Nat.zero_le _⟩
  rw [exec_completes hw (hb ▸ hf), hb]
  simp [State.complete, emitBytes]

theorem bodyOf_txData_setWidth (d : Byte) (b : Word) (s : State) :
    bodyOf (.txData (d.setWidth 64) b) s = emitBytes s (escapeByte d) := by
  rw [bodyOf, byteOperand_setWidth]

/-- Settles O39: both commands emit two bytes, and a set operand bit is a reserved one. -/
theorem txStartAndEndEmitTheEscapedSentinels : Obligations.TxStartAndEndEmitTheEscapedSentinels := by
  intro s
  refine ⟨fun hfree => ⟨exec_emitBytes rfl rfl hfree, exec_emitBytes rfl rfl hfree⟩, fun a b h => ?_⟩
  have hreserved := not_reservedClear_noOperand h
  exact ⟨reservedBitsAnswerBadOperand _ s hreserved, reservedBitsAnswerBadOperand _ s hreserved⟩

/-- Settles O40: `TX.DATA` emits its byte escaped, which is the SYN twice or the byte alone. -/
theorem txDataDoublesSynAlone : Obligations.TxDataDoublesSynAlone := by
  intro s
  refine ⟨fun hfree => ?_, fun d hd hfree => ?_,
    fun a b h => reservedBitsAnswerBadOperand _ s (not_reservedClear_u8 h)⟩
  · have hbody := bodyOf_txData_setWidth pSyn 0 s
    rw [escapeByte_syn] at hbody
    exact exec_emitBytes (wellFormed_txData pSyn) hbody hfree
  · have hbody := bodyOf_txData_setWidth d 0 s
    rw [escapeByte_of_ne hd] at hbody
    exact exec_emitBytes (wellFormed_txData d) hbody hfree

end Sys2Proof.Machine
end

section
/-! PROOFS. A sequence of raw bytes through the de-stuffer (43_framer_rx.md rules R171 to R178): what it leaves and emits as a
function of the registers, that `RX.FEED` does just that (30_encoding.md rule R81), and that the wire form of a frame that
fits comes back as the frame (rule R185). -/

namespace Sys2Proof.Machine

open Sys2Proof.Config Sys2Proof.Claims

/-- The registers a sequence of raw bytes leaves, and the records it emits, one `rxStep` a byte. -/
def rxRun (p : Params) : List Byte → Regs → Regs × List Event
  | [], r => (r, [])
  | w :: ws, r =>
    ((rxRun p ws (rxStep p w r).regs).1, (rxStep p w r).events ++ (rxRun p ws (rxStep p w r).regs).2)

@[simp] theorem rxRun_nil (p : Params) (r : Regs) : rxRun p [] r = (r, []) := rfl

theorem rxRun_append {p : Params} {ws : List Byte} {r r' : Regs} {evs : List Event} (h : rxRun p ws r = (r', evs))
    (ws' : List Byte) : rxRun p (ws ++ ws') r = ((rxRun p ws' r').1, evs ++ (rxRun p ws' r').2) := by
  induction ws generalizing r evs with
  | nil => cases h; rfl
  | cons w ws ih =>
    cases h
    rw [List.cons_append, rxRun, ih rfl, List.append_assoc]

/-! Issuing `RX.BYTE` and `RX.FEED`. -/

/-- `RX.BYTE` completes when its records fit. -/
theorem issue_rxByte {w : Byte} {s : State} (h : (rxStep s.params w s.toRegs).events.length ≤ s.evFree) :
    issue (.rxByte (zext64 w) 0) s = some (received s (rxStep s.params w s.toRegs).regs
      (rxStep s.params w s.toRegs).events (rxResult (rxStep s.params w s.toRegs))) := by
  have hbody : bodyOf (.rxByte (zext64 w) 0) s = rxByteEffect s (rxStep s.params w s.toRegs) := by
    rw [bodyOf, zext64, byteOperand_setWidth]
  have hf : s.fits (rxByteEffect s (rxStep s.params w s.toRegs)) = true := (s.fits_iff _).mpr ⟨Nat.zero_le _, h⟩
  rw [issue_eq, effectOf_wellFormed (i := .rxByte (zext64 w) 0) (wellFormed_rxByte w), hbody, if_pos hf]
  simp [State.complete, rxByteEffect, received]

/-- `RX.FEED` completes when all its records fit, and does to the de-stuffer what `rxRun` says. -/
theorem issueAll_rxFeed (ws : List Byte) (s : State) (h : (rxRun s.params ws s.toRegs).2.length ≤ s.evFree) :
    ∃ t, issueAll (rxFeed ws) s = some t ∧ t.toRegs = (rxRun s.params ws s.toRegs).1 ∧
      t.evOut = s.evOut ++ (rxRun s.params ws s.toRegs).2 ∧ t.txOut = s.txOut := by
  induction ws generalizing s with
  | nil => exact ⟨s, rfl, rfl, by simp, rfl⟩
  | cons w ws ih =>
    rw [rxRun, List.length_append] at h
    have hissue := issue_rxByte (Nat.le_of_add_right_le h)
    obtain ⟨t, hall, hregs, hev, htx⟩ := ih (received s (rxStep s.params w s.toRegs).regs
      (rxStep s.params w s.toRegs).events (rxResult (rxStep s.params w s.toRegs))) (evFree_append s _ _ h _ _ _)
    exact ⟨t, (issueAll_cons hissue _).trans hall, hregs, by simpa [rxRun, received] using hev, htx⟩

/-! The parts of a wire form, each arriving with no escape pending. -/

/-- What the de-stuffer reports of the buffer it holds when an escaped STX arrives: an overrun where the guard drops it, a
stale buffer where the STX does (rules R172, R175). -/
def staleDiag (r : Regs) : List Event :=
  if r.cap.toNat < r.rxBuf.length then [.diag .bufferOverrun r.rxBuf]
  else if r.rxBuf = [] then [] else [.diag .stxDetected r.rxBuf]

theorem staleDiag_length_le (r : Regs) : (staleDiag r).length ≤ 1 := by
  unfold staleDiag
  split_ifs <;> simp

section wire
variable {p : Params} {r : Regs} (hesc : r.rxEsc = false)
include hesc

/-- An escaped STX starts a frame, whatever the buffer held: the guard has dropped it on the SYN, or the STX finds it
empty or drops it. -/
theorem rxRun_escaped_stx :
    rxRun p [pSyn, p.pStx] r = ({ r with rxStx := true, rxBuf := [p.pStx] }, staleDiag r) := by
  by_cases hover : r.cap.toNat < r.rxBuf.length
  · simp [rxRun, rxStep_overrun hesc hover, plainByte, absorbed, rxStep_stx, rxStart, dropRead, staleDiag, hover, hesc]
  · have hsyn := rxStep_syn (p := p) hesc (Nat.le_of_not_lt hover)
    by_cases hbuf : r.rxBuf = [] <;> simp [rxRun, hsyn, absorbed, rxStep_stx, rxStart, staleDiag, hover, hbuf, hesc]

/-- An escaped ETX delivers the buffer being collected, with its ETX. -/
theorem rxRun_escaped_etx (hstx : r.rxStx = true) (hlen : r.rxBuf.length ≤ r.cap.toNat) :
    rxRun p [pSyn, p.pEtx] r = (dropRead r, [.frame (r.rxBuf ++ [p.pEtx])]) := by
  simp [rxRun, rxStep_syn hesc hlen, absorbed, rxStep_etx, rxEnd, dropRead, hstx, hesc]

/-- An escaped byte arriving within the capacity is appended, and nothing is emitted. -/
theorem rxRun_escapeByte (hlen : r.rxBuf.length ≤ r.cap.toNat) (b : Byte) :
    rxRun p (escapeByte b) r = (bufAppend r b, []) := by
  by_cases hb : b = pSyn
  · obtain ⟨hStx, hEtx, hCan, -⟩ := Params.facts p
    subst hb
    simp [rxRun, rxStep_syn hesc hlen, absorbed, rxStep_other, hStx.symm, hEtx.symm, hCan.symm, bufAppend, hesc]
  · simp [escapeByte_of_ne hb, rxRun, rxStep_data hesc hlen hb, absorbed]

/-- Escaped bytes are collected as they were before they were escaped, as long as they fit. -/
theorem rxRun_escaped (inner : List Byte) (hlen : r.rxBuf.length + inner.length ≤ r.cap.toNat) :
    rxRun p (inner.flatMap escapeByte) r = ({ r with rxBuf := r.rxBuf ++ inner }, []) := by
  induction inner generalizing r with
  | nil => simp
  | cons b bs ih =>
    rw [List.length_cons] at hlen
    have hrest : (bufAppend r b).rxBuf.length + bs.length ≤ (bufAppend r b).cap.toNat := by
      simp only [bufAppend_rxBuf, bufAppend_cap, List.length_append, List.length_singleton]
      omega
    rw [List.flatMap_cons, rxRun_append (rxRun_escapeByte hesc (Nat.le_of_add_right_le hlen) b),
      ih (r := bufAppend r b) hesc hrest]
    simp [bufAppend]

/-- The wire form of a frame that fits: one diagnostic at most about the old buffer, then the frame. -/
theorem rxRun_wire {inner : List Byte} (hlen : inner.length + 1 ≤ r.cap.toNat) :
    rxRun p (wire p ([p.pStx] ++ inner ++ [p.pEtx])) r =
      (dropRead r, staleDiag r ++ [.frame ([p.pStx] ++ inner ++ [p.pEtx])]) := by
  have hinner := rxRun_escaped (p := p) (r := { r with rxStx := true, rxBuf := [p.pStx] }) hesc inner
    (by simpa [Nat.add_comm] using hlen)
  have hend := rxRun_escaped_etx (p := p) (r := { r with rxStx := true, rxBuf := [p.pStx] ++ inner }) hesc rfl
    (by simpa using hlen)
  rw [wire, innerBytes_framed, List.append_assoc, rxRun_append (rxRun_escaped_stx hesc), rxRun_append hinner, hend]
  rfl

end wire

/-- Settles O57: `issueAll_rxFeed` reduces the feed to the registers, `rxRun_wire` says what the wire form does there. -/
theorem stuffedFrameIsDeliveredExactly : Obligations.StuffedFrameIsDeliveredExactly := by
  intro s inner f hesc hfits hfree
  have hlen : inner.length + 1 ≤ s.cap.toNat := by simpa [f] using hfits
  have hrun : rxRun s.params (wire s.params f) s.toRegs = (dropRead s.toRegs, staleDiag s.toRegs ++ [.frame f]) :=
    rxRun_wire hesc hlen
  have hroom : (rxRun s.params (wire s.params f) s.toRegs).2.length ≤ s.evFree := by
    have := staleDiag_length_le s.toRegs
    rw [hrun, List.length_append, List.length_singleton]
    omega
  obtain ⟨t, hissue, hregs, hev, htx⟩ := issueAll_rxFeed _ s hroom
  rw [hrun] at hregs hev
  refine ⟨t, hissue, ?_, ?_⟩
  · rw [hev, List.append_assoc]; rfl
  · rw [hregs]
    exact ⟨rfl, hesc, rfl, rfl, rfl, htx⟩

end Sys2Proof.Machine
end

section
/-! PROOFS. The wire form of a frame that does not fit (43_framer_rx.md rules R172, R176, R186): the guard reports the first
`CAP + 1` bytes, and from then on the de-stuffer is scanning, where the closing ETX is data. -/

namespace Sys2Proof.Machine

open Sys2Proof.Config Sys2Proof.Claims

/-- The wire form after its escaped STX: the escaped inner bytes and the escaped ETX. -/
def wireTail (p : Params) (inner : List Byte) : List Byte := inner.flatMap escapeByte ++ [pSyn, p.pEtx]

theorem wireTail_cons (p : Params) (b : Byte) (bs : List Byte) :
    wireTail p (b :: bs) = escapeByte b ++ wireTail p bs := by
  simp [wireTail]

theorem wireTail_ne_nil (p : Params) (inner : List Byte) : wireTail p inner ≠ [] := by
  simp [wireTail]

theorem wire_eq_stx_append_wireTail (p : Params) (inner : List Byte) :
    wire p ([p.pStx] ++ inner ++ [p.pEtx]) = [pSyn, p.pStx] ++ wireTail p inner := wire_framed p inner

/-- No escape pending and the buffer within the capacity: the byte is a SYN or data (rules R173, R174). -/
theorem rxStep_within {p : Params} {w : Byte} {r : Regs} (hesc : r.rxEsc = false)
    (hlen : r.rxBuf.length ≤ r.cap.toNat) : rxStep p w r = absorbed (plainByte w r) := by
  simp [rxStep, hesc, rxUnescaped, overrun, Nat.not_lt.mpr hlen]

/-- There is nothing to report of an empty buffer. -/
theorem staleDiag_of_empty {r : Regs} (hbuf : r.rxBuf = []) : staleDiag r = [] := by
  simp [staleDiag, hbuf]

/-- With `n` inner bytes and the closing ETX to come, no frame can be delivered: the read is not being collected, or the
bytes to come overfill the buffer. -/
def Undeliverable (n : Nat) (r : Regs) : Prop := r.rxStx = false ∨ r.cap.toNat < r.rxBuf.length + n

theorem Undeliverable.dropRead (n : Nat) (r : Regs) : Undeliverable n (dropRead r) := .inl rfl

theorem Undeliverable.bufAppend {n : Nat} {r : Regs} (h : Undeliverable (n + 1) r) (b : Byte) :
    Undeliverable n (bufAppend r b) := by
  unfold Undeliverable at *
  simp only [bufAppend_rxStx, bufAppend_rxBuf, bufAppend_cap, List.length_append, List.length_singleton]
  rwa [Nat.add_assoc, Nat.add_comm 1 n]

/-- What is left and emitted when a frame is lost: scanning, its ETX kept as data, no record but overruns, at most `k`. -/
structure FrameLost (p : Params) (k : Nat) (run : Regs × List Event) : Prop where
  scanning : run.1.rxStx = false
  etxIsData : run.1.rxBuf.getLast? = some p.pEtx
  overrunsOnly : ∀ e ∈ run.2, ∃ d, e = .diag .bufferOverrun d
  count : run.2.length ≤ k

theorem FrameLost.no_frame {p : Params} {k : Nat} {run : Regs × List Event} (h : FrameLost p k run) :
    ¬ ∃ d, Event.frame d ∈ run.2 := by
  rintro ⟨d, hd⟩
  obtain ⟨d', hd'⟩ := h.overrunsOnly _ hd
  cases hd'

section lost
variable {p : Params} {r : Regs} (hesc : r.rxEsc = false)
include hesc

/-- The guard reports the buffer; the rest is what the bytes do to a dropped read (rule R172). -/
theorem rxRun_overrun (hover : r.cap.toNat < r.rxBuf.length) {ws : List Byte} (hws : ws ≠ []) :
    rxRun p ws r =
      ((rxRun p ws (dropRead r)).1, .diag .bufferOverrun r.rxBuf :: (rxRun p ws (dropRead r)).2) := by
  obtain ⟨w, ws, rfl⟩ := List.exists_cons_of_ne_nil hws
  have hdropped : rxStep p w (dropRead r) = absorbed (plainByte w (dropRead r)) := rxStep_within hesc (Nat.zero_le _)
  simp [rxRun, rxStep_overrun hesc hover, hdropped, absorbed]

/-- While scanning, an escaped ETX is data (rule R176). -/
theorem rxRun_escaped_etx_scanning (hstx : r.rxStx = false) (hlen : r.rxBuf.length ≤ r.cap.toNat) :
    rxRun p [pSyn, p.pEtx] r = (bufAppend r p.pEtx, []) := by
  simp [rxRun, rxStep_syn hesc hlen, absorbed, rxStep_etx, rxEnd, bufAppend, hstx, hesc]

/-- An inner byte arriving within the capacity is collected, and the rest of the wire form follows. -/
theorem rxRun_wireTail_cons (hlen : r.rxBuf.length ≤ r.cap.toNat) (b : Byte) (bs : List Byte) :
    rxRun p (wireTail p (b :: bs)) r = rxRun p (wireTail p bs) (bufAppend r b) := by
  rw [wireTail_cons, rxRun_append (rxRun_escapeByte hesc hlen b), List.nil_append]

theorem FrameLost.of_overrun (hover : r.cap.toNat < r.rxBuf.length) {ws : List Byte} (hws : ws ≠ []) {n : Nat}
    (h : FrameLost p n (rxRun p ws (dropRead r))) : FrameLost p (r.rxBuf.length + n) (rxRun p ws r) := by
  rw [rxRun_overrun hesc hover hws]
  refine ⟨h.scanning, h.etxIsData, List.forall_mem_cons.mpr ⟨⟨_, rfl⟩, h.overrunsOnly⟩, ?_⟩
  have := h.count
  rw [List.length_cons]
  omega

end lost

/-- It is enough to look at buffers within the capacity: any other is dropped by the guard first. -/
theorem frameLost_of_within {p : Params} {ws : List Byte} {n : Nat} (hws : ws ≠ [])
    (h : ∀ r : Regs, r.rxEsc = false → r.rxBuf.length ≤ r.cap.toNat → Undeliverable n r →
      FrameLost p (r.rxBuf.length + n) (rxRun p ws r))
    {r : Regs} (hesc : r.rxEsc = false) (hu : Undeliverable n r) :
    FrameLost p (r.rxBuf.length + n) (rxRun p ws r) := by
  by_cases hover : r.cap.toNat < r.rxBuf.length
  · refine .of_overrun hesc hover hws ?_
    simpa using h (dropRead r) hesc (Nat.zero_le _) (.dropRead n r)
  · exact h r hesc (Nat.le_of_not_lt hover) hu

/-- A read that cannot be delivered is not: its bytes overrun until the closing ETX, which is data. -/
theorem frameLost_wireTail {p : Params} (inner : List Byte) {r : Regs} (hesc : r.rxEsc = false)
    (hu : Undeliverable inner.length r) :
    FrameLost p (r.rxBuf.length + inner.length) (rxRun p (wireTail p inner) r) := by
  induction inner generalizing r with
  | nil =>
    refine frameLost_of_within (wireTail_ne_nil p []) (fun r hesc hlen hu => ?_) hesc hu
    have hstx : r.rxStx = false := hu.resolve_right (Nat.not_lt.mpr hlen)
    have hrun : rxRun p (wireTail p []) r = (bufAppend r p.pEtx, []) := rxRun_escaped_etx_scanning hesc hstx hlen
    rw [hrun]
    exact ⟨hstx, by simp, by simp, Nat.zero_le _⟩
  | cons b bs ih =>
    refine frameLost_of_within (wireTail_ne_nil p _) (fun r hesc hlen hu => ?_) hesc hu
    rw [rxRun_wireTail_cons hesc hlen]
    simpa [Nat.add_assoc, Nat.add_comm 1] using ih (r := bufAppend r b) hesc (hu.bufAppend b)

/-- A buffer that the bytes to come overfill is reported once it holds `CAP + 1` bytes. -/
theorem head?_rxRun_wireTail {p : Params} (inner : List Byte) {r : Regs} (hesc : r.rxEsc = false)
    (hlen : r.rxBuf.length ≤ r.cap.toNat + 1) (hover : r.cap.toNat < r.rxBuf.length + inner.length) :
    (rxRun p (wireTail p inner) r).2.head? =
      some (.diag .bufferOverrun ((r.rxBuf ++ inner).take (r.cap.toNat + 1))) := by
  induction inner generalizing r with
  | nil =>
    rw [rxRun_overrun hesc hover (wireTail_ne_nil p _), List.take_left' (Nat.le_antisymm hlen hover)]
    rfl
  | cons b bs ih =>
    by_cases hfull : r.cap.toNat < r.rxBuf.length
    · rw [rxRun_overrun hesc hfull (wireTail_ne_nil p _), List.take_left' (Nat.le_antisymm hlen hfull)]
      rfl
    · rw [rxRun_wireTail_cons hesc (Nat.le_of_not_lt hfull),
        ih (r := bufAppend r b) hesc (by simp; omega) (by simp at hover ⊢; omega)]
      simp

/-- From an idle de-stuffer, the wire form of a frame that does not fit is lost, after a report of its first `CAP + 1`
bytes. -/
theorem rxRun_wire_overlong {p : Params} {r : Regs} {inner : List Byte} (hesc : r.rxEsc = false) (hbuf : r.rxBuf = [])
    (hlong : r.cap.toNat < inner.length + 1) :
    FrameLost p (inner.length + 1) (rxRun p (wire p ([p.pStx] ++ inner ++ [p.pEtx])) r) ∧
    (rxRun p (wire p ([p.pStx] ++ inner ++ [p.pEtx])) r).2.head? =
      some (.diag .bufferOverrun (([p.pStx] ++ inner ++ [p.pEtx]).take (r.cap.toNat + 1))) := by
  have hlong' : r.cap.toNat < [p.pStx].length + inner.length := by simpa [Nat.add_comm] using hlong
  rw [wire_eq_stx_append_wireTail, rxRun_append (rxRun_escaped_stx hesc), staleDiag_of_empty hbuf, List.nil_append]
  constructor
  · simpa [Nat.add_comm] using frameLost_wireTail (p := p) inner (r := { r with rxStx := true, rxBuf := [p.pStx] }) hesc
      (.inr hlong')
  · rw [List.take_append_of_le_length (by simpa using hlong)]
    exact head?_rxRun_wireTail inner (r := { r with rxStx := true, rxBuf := [p.pStx] }) hesc (by simp) hlong'

/-- Settles O58: `rxRun_wire` delivers a frame that fits, `rxRun_wire_overlong` says how any other is lost. -/
theorem frameIsDeliveredExactlyWhenItFits : Obligations.FrameIsDeliveredExactlyWhenItFits := by
  intro s inner f hesc hstx hbuf hfree
  have hf : f.length = inner.length + 2 := by simp [f]
  by_cases hfits : inner.length + 1 ≤ s.cap.toNat
  · have hrun : rxRun s.params (wire s.params f) s.toRegs = (dropRead s.toRegs, [.frame f]) := by
      rw [rxRun_wire hesc hfits, staleDiag_of_empty hbuf, List.nil_append]
    obtain ⟨t, hissue, -, hev, -⟩ := issueAll_rxFeed (wire s.params f) s (by rw [hrun, List.length_singleton]; omega)
    have hframe : ∃ d, Event.frame d ∈ [Event.frame f] := ⟨f, List.mem_singleton_self _⟩
    rw [hrun] at hev
    exact ⟨t, _, hissue, hev, iff_of_true hframe (by omega), fun _ => iff_of_true hframe (by omega), fun _ => by omega⟩
  · obtain ⟨hlost, hhead⟩ : FrameLost s.params (inner.length + 1) (rxRun s.params (wire s.params f) s.toRegs) ∧ _ :=
      rxRun_wire_overlong hesc hbuf (Nat.lt_of_not_le hfits)
    obtain ⟨t, hissue, hregs, hev, -⟩ := issueAll_rxFeed (wire s.params f) s (by have := hlost.count; omega)
    refine ⟨t, _, hissue, hev, iff_of_false hlost.no_frame (by omega), fun _ => iff_of_false hlost.no_frame (by omega),
      fun _ => ⟨hhead, ?_⟩⟩
    rw [hregs]
    exact ⟨hlost.scanning, hlost.etxIsData⟩

end Sys2Proof.Machine
end

section
/-! PROOFS. What the de-stuffer's commands answer (43_framer_rx.md rules R170 to R184, R187): the result word of `RX.BYTE` in
its fields, which records one byte emits, and the commands that emit none. -/

namespace Sys2Proof.Machine

open Sys2Proof.Config Sys2Proof.Claims

/-! The fields of the result words. -/

/-- The low half of the result of `RX.BYTE`: the two diagnostic bits, the pending escape and the outcome (rule R179). -/
def rxLow (ovr stx esc : Bool) (o : ReadOutcome) : BitVec 32 :=
  (0 : BitVec 26) ++ BitVec.ofBool ovr ++ BitVec.ofBool stx ++ BitVec.ofBool esc ++ o.code

theorem rxLow_fields (ovr stx esc : Bool) (o : ReadOutcome) :
    (rxLow ovr stx esc o).extractLsb' 0 3 = o.code ∧ (rxLow ovr stx esc o).getLsbD 3 = esc ∧
      (rxLow ovr stx esc o).getLsbD 4 = stx ∧ (rxLow ovr stx esc o).getLsbD 5 = ovr ∧
      (rxLow ovr stx esc o).extractLsb' 6 26 = 0 := by
  revert ovr stx esc
  cases o <;> decide

theorem rxResult_eq_rxWord (t : RxStep) :
    rxResult t = rxWord t.regs.rxBuf.length (rxLow t.ovrDiag t.stxDiag t.regs.rxEsc t.outcome) := rxResult_eq t

/-- The fields of the result of `RX.BYTE`. -/
theorem rxResult_fields (t : RxStep) :
    (rxResult t).extractLsb' 0 3 = t.outcome.code ∧ (rxResult t).getLsbD 3 = t.regs.rxEsc ∧
      (rxResult t).getLsbD 4 = t.stxDiag ∧ (rxResult t).getLsbD 5 = t.ovrDiag ∧ (rxResult t).extractLsb' 6 26 = 0 ∧
      (rxResult t).extractLsb' 32 32 = BitVec.ofNat 32 t.regs.rxBuf.length := by
  obtain ⟨houtcome, hesc, hstx, hovr, hzero⟩ := rxLow_fields t.ovrDiag t.stxDiag t.regs.rxEsc t.outcome
  rw [rxResult_eq_rxWord, rxWord]
  exact ⟨(extractLsb'_append_low _ _ (by decide)).trans houtcome, (getLsbD_append_low _ _ (by decide)).trans hesc,
    (getLsbD_append_low _ _ (by decide)).trans hstx, (getLsbD_append_low _ _ (by decide)).trans hovr,
    (extractLsb'_append_low _ _ (by decide)).trans hzero, extractLsb'_append_high _ _⟩

theorem ReadOutcome.code_eq_one_iff (o : ReadOutcome) : o.code = 1 ↔ o = .complete := by
  cases o <;> decide

theorem ReadOutcome.code_eq_two_iff (o : ReadOutcome) : o.code = 2 ↔ o = .cancelled := by
  cases o <;> decide

theorem ReadOutcome.code_cases (o : ReadOutcome) : o.code = 0 ∨ o.code = 1 ∨ o.code = 2 := by
  cases o <;> decide

theorem rxStatusLow_fields (esc stx : Bool) :
    let low : BitVec 32 := (0 : BitVec 30) ++ BitVec.ofBool esc ++ BitVec.ofBool stx
    low.getLsbD 0 = stx ∧ low.getLsbD 1 = esc ∧ low.extractLsb' 2 30 = 0 := by
  revert esc stx
  decide

/-! The records of one raw byte. -/

/-- The outcome and the diagnostic bits of one raw byte tell its records (rule R179). -/
theorem rxStep_reports (p : Params) (w : Byte) (r : Regs) :
    ((rxStep p w r).outcome = .complete ↔ ∃ d, (rxStep p w r).events = [.frame d]) ∧
    ((rxStep p w r).outcome = .cancelled ↔ ∃ d, (rxStep p w r).events = [.diag .canDetected d, .cancel]) ∧
    ((rxStep p w r).stxDiag = true ↔ ∃ d, Event.diag .stxDetected d ∈ (rxStep p w r).events) ∧
    ((rxStep p w r).ovrDiag = true ↔ ∃ d, Event.diag .bufferOverrun d ∈ (rxStep p w r).events) := by
  rcases rxStep_cases p w r with ⟨-, -, h⟩ | ⟨-, -, h⟩ | ⟨-, -, h⟩ | ⟨-, -, h⟩ | ⟨-, -, h⟩ | ⟨-, -, -, -, h⟩ <;> rw [h]
  · simp [absorbed]
  · simp [absorbed]
  · unfold rxStart
    split <;> simp [absorbed]
  · unfold rxEnd
    split <;> simp [absorbed]
  · simp [absorbed, rxCancel]
  · simp [absorbed]

/-- The records of one raw byte are of one of five kinds, by whether an escape was pending (rules R171, R184). -/
theorem rxStep_events_cases (p : Params) (w : Byte) (r : Regs) :
    (rxStep p w r).events = [] ∨
    (r.rxEsc = false ∧ (rxStep p w r).events = [.diag .bufferOverrun r.rxBuf]) ∨
    (r.rxEsc = true ∧ (rxStep p w r).events = [.diag .stxDetected r.rxBuf]) ∨
    (r.rxEsc = true ∧ (rxStep p w r).events = [.frame (r.rxBuf ++ [p.pEtx])]) ∨
    (r.rxEsc = true ∧ (rxStep p w r).events = [.diag .canDetected r.rxBuf, .cancel]) := by
  rcases rxStep_cases p w r with ⟨-, -, h⟩ | ⟨hesc, -, h⟩ | ⟨hesc, -, h⟩ | ⟨hesc, -, h⟩ | ⟨hesc, -, h⟩ |
    ⟨-, -, -, -, h⟩ <;> rw [h]
  · exact .inl rfl
  · exact .inr (.inl ⟨hesc, rfl⟩)
  · unfold rxStart
    split
    · exact .inl rfl
    · exact .inr (.inr (.inl ⟨hesc, rfl⟩))
  · unfold rxEnd
    split
    · exact .inr (.inr (.inr (.inl ⟨hesc, rfl⟩)))
    · exact .inl rfl
  · exact .inr (.inr (.inr (.inr ⟨hesc, rfl⟩)))
  · exact .inl rfl

/-- A frame or a cancellation comes of a resolved ETX or CAN, which drops the read with no escape pending (rule R187). -/
theorem rxStep_ended {p : Params} {w : Byte} {r : Regs}
    (h : (∃ d, Event.frame d ∈ (rxStep p w r).events) ∨ Event.cancel ∈ (rxStep p w r).events) :
    (rxStep p w r).regs = dropRead { r with rxEsc := false } := by
  rcases rxStep_cases p w r with ⟨-, -, heq⟩ | ⟨-, -, heq⟩ | ⟨-, -, heq⟩ | ⟨-, -, heq⟩ | ⟨-, -, heq⟩ |
    ⟨-, -, -, -, heq⟩ <;> rw [heq] at h ⊢
  · simp [absorbed] at h
  · simp at h
  · unfold rxStart at h
    split at h <;> simp [absorbed] at h
  · unfold rxEnd at h ⊢
    split at h
    · rw [if_pos ‹_›]; rfl
    · simp [absorbed] at h
  · rfl
  · simp [absorbed] at h

/-! `RX.BYTE`. -/

/-- `RX.BYTE` completes when its records fit, with the registers, the records and the result of its byte's step. -/
theorem exec_rxByte {c : Byte} {s : State} {t : RxStep} (hstep : rxStep s.params c s.toRegs = t)
    (hroom : t.events.length ≤ s.evFree) :
    exec (.rxByte (c.setWidth 64) 0) s = .next (received s t.regs t.events (rxResult t)) := by
  have hbody : bodyOf (.rxByte (c.setWidth 64) 0) s = rxByteEffect s t := by rw [bodyOf, byteOperand_setWidth, hstep]
  have hf : s.fits (rxByteEffect s t) = true := (s.fits_iff _).mpr ⟨Nat.zero_le _, hroom⟩
  rw [exec_completes (wellFormed_rxByte c) (hbody ▸ hf), hbody]
  simp [State.complete, rxByteEffect, received]

/-- The same, the fields of the result given by their values. -/
theorem exec_rxByte_fields (ovr stx esc : Bool) (o : ReadOutcome) {c : Byte} {s : State} {t : RxStep} {len : Nat}
    (hstep : rxStep s.params c s.toRegs = t) (hroom : t.events.length ≤ s.evFree)
    (hlow : rxLow t.ovrDiag t.stxDiag t.regs.rxEsc t.outcome = rxLow ovr stx esc o)
    (hlen : t.regs.rxBuf.length = len) :
    exec (.rxByte (c.setWidth 64) 0) s = .next (received s t.regs t.events (rxWord len (rxLow ovr stx esc o))) := by
  rw [exec_rxByte hstep hroom, rxResult_eq_rxWord, hlow, hlen]

/-- Whatever its operands, `RX.BYTE` does one raw byte's step to the de-stuffer, or nothing: it is ill formed or holds. -/
theorem exec_rxByte_cases {a b : Word} {s t : State} (h : exec (.rxByte a b) s = .next t) :
    t.evOut = s.evOut ∨
    ∃ w, t.toRegs = (rxStep s.params w s.toRegs).regs ∧ t.evOut = s.evOut ++ (rxStep s.params w s.toRegs).events := by
  rw [exec_next] at h
  subst h
  rcases s.finish_cases (effectOf (.rxByte a b) s) with ⟨-, hc⟩ | ⟨-, hc⟩ <;> rw [hc]
  · cases effectOf_writes (.rxByte a b) s with
    | rxByte _ w hr _ he => exact .inr ⟨w, hr, by rw [State.complete_evOut, he]⟩
    | nothing _ _ he | crc _ _ _ _ he | wire _ _ he | rxAbort _ _ _ he | cap _ _ _ _ _ he =>
      exact .inl (by rw [State.complete_evOut, he, List.append_nil])
  · exact .inl rfl

/-- Settles O51: the fields of the result are `rxResult_fields`, and `rxStep_reports` compares them with the records. -/
theorem rxByteResultReportsTheRecords : Obligations.RxByteResultReportsTheRecords := by
  intro s c hroom
  have hexec := exec_rxByte rfl ((rxStep_events_le s.params c s.toRegs).trans hroom)
  obtain ⟨hcomplete, hcancelled, hstx, hovr⟩ := rxStep_reports s.params c s.toRegs
  obtain ⟨houtcome, hescBit, hstxBit, hovrBit, hzero, hlen⟩ := rxResult_fields (rxStep s.params c s.toRegs)
  refine ⟨_, _, _, hexec, rfl, ?_⟩
  rw [houtcome, hstxBit, hovrBit]
  exact ⟨(ReadOutcome.code_eq_one_iff _).trans hcomplete, (ReadOutcome.code_eq_two_iff _).trans hcancelled,
    ReadOutcome.code_cases _, hescBit, hstx, hovr, hzero, hlen⟩

/-- Settles O52: the kinds of `rxStep_events_cases`, or none where the command is ill formed or holds. -/
theorem oneRxByteEmitsOneKindOfOutcome : Obligations.OneRxByteEmitsOneKindOfOutcome := by
  intro a b s t h
  rcases exec_rxByte_cases h with hev | ⟨w, -, hev⟩
  · exact ⟨[], by rw [hev, List.append_nil], .inl rfl⟩
  · exact ⟨_, hev, rxStep_events_cases s.params w s.toRegs⟩

/-- Settles O53: the records are those of one raw byte's step, and `rxStep_ended` says what it leaves. -/
theorem endedReadLeavesNothingBehind : Obligations.EndedReadLeavesNothingBehind := by
  intro a b s t evs h happend hended
  rcases exec_rxByte_cases h with hev | ⟨w, hregs, hev⟩
  · obtain rfl : evs = [] := by simpa [hev] using happend
    simp at hended
  · obtain rfl : evs = (rxStep s.params w s.toRegs).events := List.append_cancel_left (happend.symm.trans hev)
    rw [hregs, rxStep_ended hended]
    exact ⟨rfl, rfl, rfl⟩

/-- Settles O45: `rxStep_data` and `rxStep_syn`. -/
theorem unescapedByteIsDataAndSynIsRemembered : Obligations.UnescapedByteIsDataAndSynIsRemembered := by
  intro s c hesc hlen
  constructor
  · intro hc
    exact exec_rxByte_fields false false false .absorbed (rxStep_data hesc hlen hc) (Nat.zero_le _)
      (congrArg (rxLow false false · .absorbed) hesc) List.length_append
  · rintro rfl
    exact exec_rxByte_fields false false true .absorbed (rxStep_syn hesc hlen) (Nat.zero_le _) rfl rfl

/-- Settles O46: the guard's step is `rxStep_overrun`, and the byte is then data or a remembered SYN. -/
theorem overrunGuardDropsTheBufferNotTheByte : Obligations.OverrunGuardDropsTheBufferNotTheByte := by
  intro s c hesc hover hroom
  have hstep := rxStep_overrun (p := s.params) (w := c) hesc hover
  constructor
  · intro hc
    have hdata : plainByte c (dropRead s.toRegs) = bufAppend (dropRead s.toRegs) c := if_neg hc
    rw [hdata] at hstep
    exact exec_rxByte_fields true false false .absorbed hstep hroom (congrArg (rxLow true false · .absorbed) hesc) rfl
  · rintro rfl
    exact exec_rxByte_fields true false true .absorbed hstep hroom rfl rfl

/-- Settles O47: the step is `rxStep_stx`, which reports a buffer that is not empty. -/
theorem resolvedStxStartsAFrame : Obligations.ResolvedStxStartsAFrame := by
  intro s hesc
  have hstep := rxStep_stx (p := s.params) hesc
  constructor
  · intro hbuf
    exact exec_rxByte_fields false false false .absorbed (hstep.trans (if_pos hbuf)) (Nat.zero_le _) rfl rfl
  · intro hbuf hroom
    exact exec_rxByte_fields false true false .absorbed (hstep.trans (if_neg hbuf)) hroom rfl rfl

/-- Settles O48: the step is `rxStep_etx`, which looks at the phase. -/
theorem resolvedEtxCompletesOrIsData : Obligations.ResolvedEtxCompletesOrIsData := by
  intro s hesc
  have hstep := rxStep_etx (p := s.params) hesc
  constructor
  · intro hstx hroom
    exact exec_rxByte_fields false false false .complete (hstep.trans (if_pos hstx)) hroom rfl rfl
  · intro hstx
    exact exec_rxByte_fields false false false .absorbed (hstep.trans (if_neg (Bool.eq_false_iff.mp hstx)))
      (Nat.zero_le _) rfl List.length_append

/-- Settles O49: the step is `rxStep_can`. -/
theorem resolvedCanCancelsTheRead : Obligations.ResolvedCanCancelsTheRead := fun _ hesc hroom =>
  exec_rxByte_fields false false false .cancelled (rxStep_can hesc) hroom rfl rfl

/-- Settles O50: the step is `rxStep_other`. -/
theorem resolvedOtherByteIsAppended : Obligations.ResolvedOtherByteIsAppended := fun _ _ hesc hStx hEtx hCan =>
  exec_rxByte_fields false false false .absorbed (rxStep_other hesc hStx hEtx hCan) (Nat.zero_le _) rfl
    List.length_append

/-! The commands that emit nothing. -/

/-- A well-formed command that emits nothing completes in every state, with no record added. -/
theorem exec_received {i : Instr} {s : State} (hw : i.wellFormed = true) {r : Regs} {result : Word}
    (hbody : bodyOf i s = { respondOk s result with regs := r }) : exec i s = .next (received s r [] result) := by
  rw [exec_silent hw (by rw [hbody]; rfl) (by rw [hbody]; rfl), hbody]
  simp [received]

/-- Settles O54: the command is silent, and a set operand bit is a reserved one. -/
theorem abortDropsTheReadSilently : Obligations.AbortDropsTheReadSilently := by
  intro s
  exact ⟨exec_received rfl rfl, fun a b h => reservedBitsAnswerBadOperand _ s (not_reservedClear_noOperand h)⟩

theorem toNat_u32Operand {a : Word} (h : a.toNat < 2 ^ 32) : (u32Operand a).toNat = a.toNat := by
  rw [u32Operand_eq, BitVec.toNat_setWidth, Nat.mod_eq_of_lt h]

/-- Settles O55: every capacity allowed fits in the operand's 32 bits (rule R5); past it the command's own check fails, past
32 bits the operand check does. -/
theorem setcapTakesLegalCapacitiesOnly : Obligations.SetcapTakesLegalCapacitiesOnly := by
  intro s a b
  obtain ⟨-, -, -, -, -, -, -, hbytes, -⟩ := Params.facts s.params
  refine ⟨fun hb hle => ?_, fun h => ?_⟩
  · have ha : a.toNat < 2 ^ 32 := by omega
    have hresult : zext64 (u32Operand a) = a :=
      BitVec.eq_of_toNat_eq (by rw [zext64, BitVec.toNat_setWidth, toNat_u32Operand ha, Nat.mod_eq_of_lt a.isLt])
    refine exec_received (i := .rxSetcap a b) ((reservedClear_u32 a b).mpr ⟨ha, hb⟩) ?_
    rw [bodyOf, toNat_u32Operand ha, if_neg (Nat.not_lt.mpr hle), hresult, u32Operand_eq]
  · cases hw : (Instr.rxSetcap a b).wellFormed with
    | false => exact reservedBitsAnswerBadOperand _ s hw
    | true =>
      obtain ⟨ha, hb⟩ := (reservedClear_u32 a b).mp hw
      have hlarge : s.params.rxBufBytes - 1 < (u32Operand a).toNat := by
        rw [toNat_u32Operand ha]
        exact h.resolve_left (fun hne => hne hb)
      rw [exec_eq, effectOf_wellFormed hw, bodyOf, if_pos hlarge, State.finish_failWith]
      rfl

/-- Settles O56: both commands are free of state, and a set operand bit is a reserved one. -/
theorem getcapAndStatusReadTheDestuffer : Obligations.GetcapAndStatusReadTheDestuffer := by
  intro s
  refine ⟨exec_of_stateless (i := .rxGetcap 0 0) (by simp [Instr.opcode]) s,
    ⟨rxStatusWord s.toRegs, exec_of_stateless (i := .rxStatus 0 0) (by simp [Instr.opcode]) s, ?_⟩, fun a b h => ?_⟩
  · obtain ⟨hstx, hesc, hzero⟩ := rxStatusLow_fields s.rxEsc s.rxStx
    rw [rxStatusWord_eq]
    exact ⟨(getLsbD_append_low _ _ (by decide)).trans hstx, (getLsbD_append_low _ _ (by decide)).trans hesc,
      (extractLsb'_append_low _ _ (by decide)).trans hzero, extractLsb'_append_high _ _⟩
  · have hreserved := not_reservedClear_noOperand h
    exact ⟨reservedBitsAnswerBadOperand _ s hreserved, reservedBitsAnswerBadOperand _ s hreserved⟩

end Sys2Proof.Machine
end

section
/-! PROOFS. The block control commands: what each of them answers (44_block.md rules R220 and R221). -/

namespace Sys2Proof.Machine

open Sys2Proof.Config Sys2Proof.Claims

/-- The parameter word in arithmetic: `RX_BUF_BYTES` keeps its value in 32 bits (00_scope.md rule R5). -/
theorem paramWord_toNat (p : Params) :
    (paramWord p).toNat = p.rxBufBytes * 2 ^ 32 + p.pCan.toNat * 2 ^ 24 + p.pEtx.toNat * 2 ^ 16 +
      p.pStx.toNat * 2 ^ 8 + 0x10 := by
  obtain ⟨-, -, -, -, -, -, -, hbytes, -⟩ := Params.facts p
  have hfits : p.rxBufBytes % 2 ^ 32 = p.rxBufBytes := Nat.mod_eq_of_lt (by omega)
  have hsyn : pSyn.toNat = 0x10 := rfl
  simp only [paramWord, append_toNat, BitVec.toNat_ofNat, hfits, hsyn]
  omega

/-- Settles O26: both commands are free of state, `paramWord_toNat` reads the answer, and a set operand bit is a reserved
one. -/
theorem blockCommandsAnswer : Obligations.BlockCommandsAnswer := by
  intro s
  refine ⟨exec_of_stateless (i := .blkNop 0 0) (by simp [Instr.opcode]) s,
    ⟨paramWord s.params, exec_of_stateless (i := .blkParam 0 0) (by simp [Instr.opcode]) s, paramWord_toNat s.params⟩,
    fun a b h => ?_⟩
  have hreserved := not_reservedClear_noOperand h
  exact ⟨reservedBitsAnswerBadOperand _ s hreserved, reservedBitsAnswerBadOperand _ s hreserved⟩

end Sys2Proof.Machine
end

section
/-! PROOFS. How a command ends other than with its output and `OK`: a failure changes nothing (60_exceptions.md rule R232),
and a command whose output does not fit holds (70_reset_and_hazards.md rule R265). -/

namespace Sys2Proof.Machine

open Sys2Proof.Config Sys2Proof.Claims

/-! Failing. -/

/-- A word on the port finishes an effect which, answering anything but `OK`, is a failure. -/
theorem runCommand_fails (w : CommandWord) (s : State) :
    ∃ e, runCommand w s = .next (s.finish e) ∧ (e.resp.status ≠ .ok → ∃ st, e = failWith s st) := by
  obtain ⟨e, hrun, ⟨i, -, rfl⟩ | ⟨-, rfl⟩⟩ := runCommand_eq w s
  · exact ⟨_, hrun, effectOf_fails⟩
  · exact ⟨_, hrun, fun _ => ⟨.illegalOp, rfl⟩⟩

/-- Settles O16: the completed command's response is its effect's, so the effect is a failure (`runCommand_fails`), which
leaves the state as it is but for the port. -/
theorem failingCommandsChangeNothing : Obligations.FailingCommandsChangeNothing := by
  intro s t w r hp hrun ht hresp hr
  obtain ⟨e, hfinish, hfails⟩ := runCommand_fails w s
  obtain rfl : s.finish e = t := by rw [hfinish] at hrun; cases hrun; rfl
  have hf : s.fits e = true := State.fits_of_finish_pending (by simp [hp]) ht
  obtain rfl : e.resp = r := by rw [State.finish_fits hf] at hresp; exact Option.some.inj hresp
  obtain ⟨st, rfl⟩ := hfails hr
  exact ⟨State.finish_failWith s st, rfl, rfl⟩

/-! Holding. -/

/-- A well-formed command whose bytes or records are more than their queue leaves free changes nothing. -/
theorem exec_holds {i : Instr} {s : State} (hw : i.wellFormed = true)
    (h : s.txFree < (bodyOf i s).tx.length ∨ s.evFree < (bodyOf i s).ev.length) : exec i s = .next s := by
  have hf : s.fits (bodyOf i s) = false := by
    rw [Bool.eq_false_iff, ne_eq, State.fits_iff]
    omega
  rw [exec_eq, effectOf_wellFormed hw, State.finish_holds hf]

/-- A command on the port that changes nothing when run holds. -/
theorem holding_of_exec {i : Instr} {s : State} (hp : s.pending = some (encode i)) (h : exec i s = .next s) :
    holding s :=
  ⟨encode i, hp, (runCommand_of_decode (decode_encode i)).trans h⟩

theorem escapeByte_length (b : Byte) : (escapeByte b).length = if b = 0x10 then 2 else 1 :=
  apply_ite List.length (b = pSyn) [pSyn, b] [b]

theorem bodyOf_rxByte_setWidth (c : Byte) (b : Word) (s : State) :
    bodyOf (.rxByte (c.setWidth 64) b) s = rxByteEffect s (rxStep s.params c s.toRegs) := by
  rw [bodyOf, byteOperand_setWidth]

/-- Settles O23: each of the four commands emits more than its queue leaves free (`exec_holds`), so it holds and it is the
host's turn. -/
theorem commandsHoldWhileTheirOutputDoesNotFit : Obligations.CommandsHoldWhileTheirOutputDoesNotFit := by
  intro s i hr hp h
  have hexec : exec i s = .next s := by
    rcases h with ⟨rfl, hfree⟩ | ⟨rfl, hfree⟩ | ⟨d, rfl, hfree⟩ | ⟨c, rfl, hfree⟩
    · exact exec_holds rfl (.inl hfree)
    · exact exec_holds rfl (.inl hfree)
    · refine exec_holds (wellFormed_txData d) (.inl ?_)
      rw [bodyOf_txData_setWidth]
      exact (escapeByte_length d).symm ▸ hfree
    · refine exec_holds (wellFormed_rxByte c) (.inr ?_)
      rw [bodyOf_rxByte_setWidth]
      exact hfree
  exact ⟨hexec, hostTurn_of_holding hr (holding_of_exec hp hexec)⟩

end Sys2Proof.Machine
end

section
/-! PROOFS. Asserting reset, and a block that was never reset (70_reset_and_hazards.md rules R260 and R261;
93_implementation_defined.md row 2). -/

namespace Sys2Proof.Machine

open Sys2Proof.Claims

section asserted
variable {s : State} {rest : List HostAction}

/-- The host's turn gives every piece of state its reset value when its action is reset. -/
theorem resetLeaves_serveHost (h : s.inputs = .reset :: rest) : resetLeaves s rest s.serveHost := by
  rw [serveHost_reset h]
  exact ⟨rfl, rfl, rfl, rfl, rfl, rfl, rfl, rfl, rfl, rfl, rfl, rfl, rfl, rfl⟩

theorem beforeReset_reset (h : s.inputs = .reset :: rest) : s.beforeReset = .next s.serveHost := by
  simp [State.beforeReset, h]

end asserted

/-- Before the first reset a word on the port, or a host action other than reset, is refused. -/
theorem beforeReset_refuses {s : State} (h : s.pending ≠ none ∨ s.inputs ≠ [])
    (hin : ∀ rest, s.inputs ≠ .reset :: rest) : s.beforeReset = .refused .beforeFirstReset := by
  unfold State.beforeReset
  split
  next rest heq => exact absurd heq (hin rest)
  next heq => exact if_neg (h.resolve_right (not_not_intro heq))
  next => rfl

/-- In a block never reset the step is `beforeReset`. -/
theorem step_unreset {s : State} (hr : s.resetDone = false) : step s = s.beforeReset := by
  simp [step, portStep, hr]

/-- Settles O10: in each of the three cases the step carries what the host's turn leaves (`resetLeaves_serveHost`). -/
theorem resetSetsEveryPieceOfState : Obligations.ResetSetsEveryPieceOfState := by
  intro s rest hin
  have hleaves := resetLeaves_serveHost hin
  refine ⟨fun hport => ⟨s.serveHost, ?_, hleaves⟩,
    fun hr hh => ⟨s.serveHost, (hostTurn_of_holding hr hh).2 rest hin, hleaves⟩⟩
  cases hr : s.resetDone with
  | false => rw [step_unreset hr, beforeReset_reset hin]
  | true => exact step_between hr (hport.resolve_left (by simp [hr]))

/-- Settles O11: a command, on the port or as the host's next action, is not reset (`beforeReset_refuses`). -/
theorem commandBeforeTheFirstResetIsRefused : Obligations.CommandBeforeTheFirstResetIsRefused := by
  intro s hr
  rw [step_unreset hr]
  exact ⟨fun w hp hin => beforeReset_refuses (.inl (by simp [hp])) hin,
    fun w rest hcmd => beforeReset_refuses (.inr (by simp [hcmd])) (by simp [hcmd])⟩

end Sys2Proof.Machine
end
